-- ==== Sys2Proof/Word.lean ====
section
/-! DEFINITION. The two value types of the block: the byte (u8) and the 16-bit address or word (u16)
(00_scope.md R8, R10, DATA_WIDTH and ADDR_WIDTH). Arithmetic on them wraps modulo 256 and modulo 65536. -/

namespace Sys2Proof

/-- u8: the width of A, X, Y, status and of one memory byte (R8, R10). -/
abbrev Byte := BitVec 8

/-- u16: the width of PC, of addresses and of a two-byte quantity (R8, R10). -/
abbrev Addr := BitVec 16

end Sys2Proof
end

