-- ==== Sys2Proof/Config.lean ====
section
/-! DEFINITION. The implementation parameters of 00_scope.md R8. The spec leaves no value free
(93_implementation_defined.md: "no value is left as 'any value'"), so nothing here is opaque. -/

namespace Sys2Proof.Config

/-- MEM_SIZE (R8, R33): addresses 0x0000 to 0xFFFF. -/
abbrev memSize : Nat := 65536

/-- What a byte of memory that nothing has written reads as: `new()` zeroes all memory (R35). -/
abbrev memDefault : Byte := 0x00#8

/-- LOAD_BASE (R8, R232): where `load` copies a program. -/
abbrev loadBase : Addr := 0x8000

/-- MAX_PROGRAM_LEN (R8, R233; log 10). -/
abbrev maxProgramLen : Nat := 0x8000

/-- RESET_VECTOR_ADDR (R8, R235): the low byte's address; the high byte is at 0xFFFD. -/
abbrev resetVectorAddr : Addr := 0xFFFC

/-- The value `load` writes to the reset vector (R8, R232). -/
abbrev resetVectorValue : Addr := 0x8000

end Sys2Proof.Config
end

