-- ==== Sys2Proof/Syntax.lean ====
section
/-! DEFINITION. The instructions as syntax: the seven handlers, the nine addressing modes with the
NoneAddressing sentinel, and one constructor of `Instr` for each row of spec/opcode_table.json
(00_scope.md R2, 30_encoding.md R63). An operand byte or word is the constructor's argument. -/

namespace Sys2Proof

/-- The handlers of the dispatch table (42_execution_engine.md R127): one for each mnemonic of R2. -/
inductive Handler where
  | brk | adc | sta | lda | tax | inx | sbc
  deriving DecidableEq, Repr

/-- The addressing modes (40_addressing.md R81 to R90): nine modes and the sentinel NoneAddressing. -/
inductive Mode where
  | noneAddressing
  | immediate
  | zeroPage
  | zeroPageX
  | zeroPageY
  | absolute
  | absoluteX
  | absoluteY
  | indirectX
  | indirectY
  deriving DecidableEq, Repr

/-- What an opcode byte selects besides its width, which the mode fixes (R127, R91). -/
structure Entry where
  handler : Handler
  mode : Mode
  deriving DecidableEq, Repr

/-- The instructions, in the order of the opcode map R63. `imm` is imm8, `zp` is zp8 (the zero-page
address, or the pointer base of the indirect modes) and `addr` is abs16 (R62). -/
inductive Instr where
  | brk
  | adcImm (imm : Byte)
  | staIndX (zp : Byte)
  | staZp (zp : Byte)
  | staAbs (addr : Addr)
  | staIndY (zp : Byte)
  | staZpX (zp : Byte)
  | staAbsY (addr : Addr)
  | staAbsX (addr : Addr)
  | ldaIndX (zp : Byte)
  | ldaZp (zp : Byte)
  | ldaImm (imm : Byte)
  | tax
  | ldaAbs (addr : Addr)
  | ldaIndY (zp : Byte)
  | ldaZpX (zp : Byte)
  | ldaAbsY (addr : Addr)
  | ldaAbsX (addr : Addr)
  | inx
  | sbcImm (imm : Byte)
  deriving DecidableEq, Repr

/-- The (handler, mode) pair an instruction stands for (R63, columns "mnemonic" and "mode"). -/
def Instr.entry : Instr → Entry
  | .brk => ⟨.brk, .noneAddressing⟩
  | .adcImm _ => ⟨.adc, .immediate⟩
  | .staIndX _ => ⟨.sta, .indirectX⟩
  | .staZp _ => ⟨.sta, .zeroPage⟩
  | .staAbs _ => ⟨.sta, .absolute⟩
  | .staIndY _ => ⟨.sta, .indirectY⟩
  | .staZpX _ => ⟨.sta, .zeroPageX⟩
  | .staAbsY _ => ⟨.sta, .absoluteY⟩
  | .staAbsX _ => ⟨.sta, .absoluteX⟩
  | .ldaIndX _ => ⟨.lda, .indirectX⟩
  | .ldaZp _ => ⟨.lda, .zeroPage⟩
  | .ldaImm _ => ⟨.lda, .immediate⟩
  | .tax => ⟨.tax, .noneAddressing⟩
  | .ldaAbs _ => ⟨.lda, .absolute⟩
  | .ldaIndY _ => ⟨.lda, .indirectY⟩
  | .ldaZpX _ => ⟨.lda, .zeroPageX⟩
  | .ldaAbsY _ => ⟨.lda, .absoluteY⟩
  | .ldaAbsX _ => ⟨.lda, .absoluteX⟩
  | .inx => ⟨.inx, .noneAddressing⟩
  | .sbcImm _ => ⟨.sbc, .immediate⟩

/-- The instruction's handler. -/
abbrev Instr.handler (i : Instr) : Handler := i.entry.handler

/-- The instruction's addressing mode. -/
abbrev Instr.mode (i : Instr) : Mode := i.entry.mode

end Sys2Proof
end

