-- ==== Sys2Proof/WellFormed.lean ====
section
/-! DEFINITION. Well-formedness of what the block is given: a dispatch entry names a pair that R2 puts
in scope, an instruction stands for such a pair, and a program fits the load area. The operand
fields of `Instr` are bit vectors of the encoding's own width, so no operand can be out of range. -/

namespace Sys2Proof

/-- The (handler, mode) pairs in scope (00_scope.md R2): LDA in 8 modes (no ZeroPage_Y: 30_encoding.md
R64), STA in those less Immediate, ADC and SBC in Immediate only, and TAX, INX and BRK with no mode. -/
def Entry.wellFormed : Entry → Bool
  | ⟨.lda, m⟩ => m ≠ .noneAddressing && m ≠ .zeroPageY
  | ⟨.sta, m⟩ => m ≠ .noneAddressing && m ≠ .zeroPageY && m ≠ .immediate
  | ⟨.adc, m⟩ => m = .immediate
  | ⟨.sbc, m⟩ => m = .immediate
  | ⟨.tax, m⟩ => m = .noneAddressing
  | ⟨.inx, m⟩ => m = .noneAddressing
  | ⟨.brk, m⟩ => m = .noneAddressing

/-- An instruction is well formed when its pair is in scope. Every term of `Instr` is
(`Laws.instr_wellFormed`): the opcode map is closed under its constructors. -/
def Instr.wellFormed (i : Instr) : Bool := i.entry.wellFormed

/-- A program that `load` accepts: at most MAX_PROGRAM_LEN bytes (70_reset_and_hazards.md R232, R233). -/
def programFits (p : List Byte) : Bool := p.length ≤ Config.maxProgramLen

end Sys2Proof
end

