-- ==== Sys2Proof/Decode.lean ====
section
/-! DEFINITION. The byte-order helpers, the dispatch table (42_execution_engine.md R127), the decoder,
total on any bytes, and after it the encoder (30_encoding.md R60 to R66). -/

namespace Sys2Proof

/-! ### Byte order and width helpers (00_scope.md R10) -/

/-- `zext_16(b)`: the byte as a u16 of the same value. -/
def zext16 (b : Byte) : Addr := b.setWidth 16

/-- `hi : lo`, the word `hi*256 + lo`. -/
def joinBytes (hi lo : Byte) : Addr := hi ++ lo

/-- `lo8(w)`, the low byte of a word. -/
def lo8 (w : Addr) : Byte := w.extractLsb' 0 8

/-- `hi8(w)`, the high byte of a word. -/
def hi8 (w : Addr) : Byte := w.extractLsb' 8 8

/-! ### The dispatch table -/

/-- The operand width of a mode: how many bytes stand after the opcode byte (R61, R91). -/
def Mode.width : Mode → Nat
  | .noneAddressing => 0
  | .immediate => 1
  | .zeroPage => 1
  | .zeroPageX => 1
  | .zeroPageY => 1
  | .absolute => 2
  | .absoluteX => 2
  | .absoluteY => 2
  | .indirectX => 1
  | .indirectY => 1

/-- How an instruction is made from the bytes after its opcode (R61, R62): from none, from one byte,
or from a little-endian word. -/
inductive Former where
  | implied (i : Instr)
  | byte (mk : Byte → Instr)
  | word (mk : Addr → Instr)

/-- One row of the opcode map R63. -/
structure Row where
  opcode : Byte
  entry : Entry
  former : Former

/-- The 20 rows of R63 (log 4: thirteen byte-to-mode rows are the spec's general knowledge, D4). -/
def dispatchTable : List Row :=
  [ ⟨0x00, ⟨.brk, .noneAddressing⟩, .implied .brk⟩,
    ⟨0x69, ⟨.adc, .immediate⟩, .byte .adcImm⟩,
    ⟨0x81, ⟨.sta, .indirectX⟩, .byte .staIndX⟩,
    ⟨0x85, ⟨.sta, .zeroPage⟩, .byte .staZp⟩,
    ⟨0x8D, ⟨.sta, .absolute⟩, .word .staAbs⟩,
    ⟨0x91, ⟨.sta, .indirectY⟩, .byte .staIndY⟩,
    ⟨0x95, ⟨.sta, .zeroPageX⟩, .byte .staZpX⟩,
    ⟨0x99, ⟨.sta, .absoluteY⟩, .word .staAbsY⟩,
    ⟨0x9D, ⟨.sta, .absoluteX⟩, .word .staAbsX⟩,
    ⟨0xA1, ⟨.lda, .indirectX⟩, .byte .ldaIndX⟩,
    ⟨0xA5, ⟨.lda, .zeroPage⟩, .byte .ldaZp⟩,
    ⟨0xA9, ⟨.lda, .immediate⟩, .byte .ldaImm⟩,
    ⟨0xAA, ⟨.tax, .noneAddressing⟩, .implied .tax⟩,
    ⟨0xAD, ⟨.lda, .absolute⟩, .word .ldaAbs⟩,
    ⟨0xB1, ⟨.lda, .indirectY⟩, .byte .ldaIndY⟩,
    ⟨0xB5, ⟨.lda, .zeroPageX⟩, .byte .ldaZpX⟩,
    ⟨0xB9, ⟨.lda, .absoluteY⟩, .word .ldaAbsY⟩,
    ⟨0xBD, ⟨.lda, .absoluteX⟩, .word .ldaAbsX⟩,
    ⟨0xE8, ⟨.inx, .noneAddressing⟩, .implied .inx⟩,
    ⟨0xE9, ⟨.sbc, .immediate⟩, .byte .sbcImm⟩ ]

/-- The table as a map from opcode byte to row; `none` for the 236 other bytes (R65, R127). All 8 bits
of the opcode are matched exactly (R63). -/
def dispatch (op : Byte) : Option Row := dispatchTable.find? (fun r => r.opcode == op)

/-! ### The decoder -/

/-- Why bytes are no instruction. -/
inductive DecodeError where
  /-- There is no byte at all. -/
  | noBytes
  /-- The first byte is none of the 20 opcodes (R65). -/
  | unimplementedOpcode (op : Byte)
  /-- The list ends inside the operand of an implemented opcode. Never raised by the engine, whose
  fetch gives three bytes. -/
  | missingOperand (op : Byte)
  deriving DecidableEq, Repr

/-- The instruction at the head of a list of bytes, with the bytes after it. The opcode byte alone
fixes the row and the length (R60, R66); an operand byte may have any value (R65). -/
def decode : List Byte → Except DecodeError (Instr × List Byte)
  | [] => .error .noBytes
  | op :: bytes =>
    match dispatch op with
    | none => .error (.unimplementedOpcode op)
    | some row =>
      match row.former, bytes with
      | .implied i, rest => .ok (i, rest)
      | .byte mk, b :: rest => .ok (mk b, rest)
      | .word mk, lo :: hi :: rest => .ok (mk (joinBytes hi lo), rest)
      | .byte _, [] => .error (.missingOperand op)
      | .word _, [] => .error (.missingOperand op)
      | .word _, [_] => .error (.missingOperand op)

/-! ### The encoder -/

/-- An instruction's bytes, from the opcode map R63 and the formats R61 (abs16 low byte first, R45). -/
def encode : Instr → List Byte
  | .brk => [0x00]
  | .adcImm imm => [0x69, imm]
  | .staIndX zp => [0x81, zp]
  | .staZp zp => [0x85, zp]
  | .staAbs addr => [0x8D, lo8 addr, hi8 addr]
  | .staIndY zp => [0x91, zp]
  | .staZpX zp => [0x95, zp]
  | .staAbsY addr => [0x99, lo8 addr, hi8 addr]
  | .staAbsX addr => [0x9D, lo8 addr, hi8 addr]
  | .ldaIndX zp => [0xA1, zp]
  | .ldaZp zp => [0xA5, zp]
  | .ldaImm imm => [0xA9, imm]
  | .tax => [0xAA]
  | .ldaAbs addr => [0xAD, lo8 addr, hi8 addr]
  | .ldaIndY zp => [0xB1, zp]
  | .ldaZpX zp => [0xB5, zp]
  | .ldaAbsY addr => [0xB9, lo8 addr, hi8 addr]
  | .ldaAbsX addr => [0xBD, lo8 addr, hi8 addr]
  | .inx => [0xE8]
  | .sbcImm imm => [0xE9, imm]

/-! ### A table word as bytes -/

/-- The three bytes an instruction word of spec/opcode_table.json occupies, lowest address first: bit 0
is the least significant bit of the first byte, and every bit from `nbits` up is 0. -/
def tableBytes (nbits w : Nat) : List Byte :=
  let v := w % 2 ^ nbits
  [BitVec.ofNat 8 v, BitVec.ofNat 8 (v / 256), BitVec.ofNat 8 (v / 65536)]

/-- The instruction the decoder reads from a table word. -/
def decodeTableWord (nbits w : Nat) : Option Instr :=
  match decode (tableBytes nbits w) with
  | .ok (i, _) => some i
  | .error _ => none

end Sys2Proof
end

