-- ==== Sys2Proof/Machine/State.lean ====
section
/-! DEFINITION. The state of the block as plain data (10_state.md), the reasons a step can stop, and the
states after `new()` and after `reset()`. -/

namespace Sys2Proof.Machine

/-- The two fault kinds (60_exceptions.md R200), each with the opcode byte and its address. -/
inductive Fault where
  /-- Raised by `step` when the byte fetched at `opAddr` is none of the 20 opcodes (R201). The spec names
  this fault, so it is exact. -/
  | unimplementedOpcode (op : Byte) (opAddr : Addr)
  /-- Raised by `resolve` on NoneAddressing (40_addressing.md R90, R202). No step raises it (D20). Exact. -/
  | invalidAddressingMode (op : Byte) (opAddr : Addr)
  deriving DecidableEq, Repr

/-- Reasons of the model, not of the block. -/
inductive Refusal where
  /-- Raised by an arm of `exec` without a meaning. Safe: the machine stops where the block goes on. No
  arm raises it now. -/
  | notModelled (mnemonic : String)
  deriving DecidableEq, Repr

/-- The engine's run status (10_state.md R34): what `run()` last answered, or that it is executing. -/
inductive RunStatus where
  /-- After `new()` and after `reset()` (R35, R36). -/
  | idle
  /-- While `run()` executes. -/
  | running
  /-- `run()` ended at a BRK (46_control.md R190). -/
  | halted
  /-- `run()` ended with a fault (60_exceptions.md R206). -/
  | faulted (info : Fault)
  deriving DecidableEq, Repr

/-- The state (10_state.md R20, R34). `mem` lists the bytes of memory that are not 0x00, by rising
address: an unlisted address reads as 0x00 (`Config.memDefault`). -/
structure State where
  a : Byte
  x : Byte
  y : Byte
  status : Byte
  pc : Addr
  mem : List Host.Cell
  runStatus : RunStatus
  deriving DecidableEq, Repr

/-- The canonical form of a memory whose addresses are all `lo` or above: rising addresses below MEM_SIZE,
no entry equal to what an unlisted address reads as. -/
def Memory.wfFrom : Nat → List Host.Cell → Bool
  | _, [] => true
  | lo, (b, w) :: m => lo ≤ b && b < Config.memSize && w != Config.memDefault && Memory.wfFrom (b + 1) m

/-- The canonical form of a memory. -/
def Memory.wf (m : List Host.Cell) : Bool := Memory.wfFrom 0 m

/-- The state `new()` returns: every component zero (R35, 70_reset_and_hazards.md R231). -/
def State.new : State :=
  { a := 0x00, x := 0x00, y := 0x00, status := 0x00, pc := 0x0000, mem := [], runStatus := .idle }

/-- The machine right after `new(); reset()` (10_state.md R36; log 1): A, X, Y and status zero, memory as
`new()` left it, and PC the reset vector's two bytes, both 0x00. -/
def State.reset : State :=
  { a := 0x00, x := 0x00, y := 0x00, status := 0x00, pc := 0x0000, mem := [], runStatus := .idle }

end Sys2Proof.Machine
end

