-- ==== Sys2Proof/Machine/Ops.lean ====
section
/-! DEFINITION. The named operations over memory and registers, and what a halt and a fault do to the
state (20_memory.md, 42_execution_engine.md R125, 46_control.md R190, 60_exceptions.md R206, R207). -/

namespace Sys2Proof.Machine

/-! ### Memory as a canonical list -/

/-- The byte at an address; an unlisted one reads as `Config.memDefault`. -/
def Memory.read : List Host.Cell → Nat → Byte
  | [], _ => Config.memDefault
  | (b, w) :: m, a => if a = b then w else Memory.read m a

/-- The memory without any entry for an address. -/
def Memory.erase : List Host.Cell → Nat → List Host.Cell
  | [], _ => []
  | (b, w) :: m, a => if a = b then Memory.erase m a else (b, w) :: Memory.erase m a

/-- The memory with an entry put in before the first higher address. -/
def Memory.insert : List Host.Cell → Nat → Byte → List Host.Cell
  | [], a, v => [(a, v)]
  | (b, w) :: m, a, v => if a < b then (a, v) :: (b, w) :: m else (b, w) :: Memory.insert m a v

/-- The memory with one byte set, in canonical form: writing the value an unlisted address reads as
removes the entry. -/
def Memory.write (m : List Host.Cell) (a : Nat) (v : Byte) : List Host.Cell :=
  if v = Config.memDefault then Memory.erase m a else Memory.insert (Memory.erase m a) a v

/-! ### Register writes (10_state.md R21 to R26, R34) -/

/-- `A <- v`. -/
def State.setA (v : Byte) (s : State) : State := { s with a := v }

/-- `X <- v`. -/
def State.setX (v : Byte) (s : State) : State := { s with x := v }

/-- `Y <- v`: by the host only (R23). -/
def State.setY (v : Byte) (s : State) : State := { s with y := v }

/-- `status <- v`: all eight bits are writable (R32). -/
def State.setStatus (v : Byte) (s : State) : State := { s with status := v }

/-- `PC <- target`. -/
def State.setPc (v : Addr) (s : State) : State := { s with pc := v }

/-- The memory replaced. -/
def State.setMem (m : List Host.Cell) (s : State) : State := { s with mem := m }

/-- The run status replaced. -/
def State.setRunStatus (r : RunStatus) (s : State) : State := { s with runStatus := r }

/-! ### The memory primitives (20_memory.md R41 to R44) -/

/-- `MemRead(addr, 1)` (R41): never fails and changes nothing. -/
def State.memRead (s : State) (a : Addr) : Byte := Memory.read s.mem a.toNat

/-- `MemWrite(addr, 1, v)` (R42). -/
def State.memWrite (a : Addr) (v : Byte) (s : State) : State := s.setMem (Memory.write s.mem a.toNat v)

/-- `MemRead(addr, 2)` (R43): little-endian, the high byte's address modulo 65536 (log 2). -/
def State.memRead16 (s : State) (a : Addr) : Addr := joinBytes (s.memRead (a + 1)) (s.memRead a)

/-- `MemWrite(addr, 2, v)` (R44): the low byte first, then the high byte at the address modulo 65536. -/
def State.memWrite16 (a : Addr) (v : Addr) (s : State) : State :=
  (s.memWrite a (lo8 v)).memWrite (a + 1) (hi8 v)

/-- Bytes stored at consecutive addresses, lowest first. -/
def State.writeBytes : Addr → List Byte → State → State
  | _, [], s => s
  | a, b :: bytes, s => State.writeBytes (a + 1) bytes (s.memWrite a b)

/-! ### PC, halt and fault -/

/-- pc1, the address just after the opcode byte, modulo 65536 (42_execution_engine.md R123). -/
def State.pc1 (s : State) : Addr := s.pc + 1

/-- `PC <- (pc1 + width) mod 65536` for the width of the instruction's mode (R125, 40_addressing.md R91). -/
def State.advancePc (m : Mode) (s : State) : State := s.setPc (s.pc1 + BitVec.ofNat 16 m.width)

/-- `halt`: run() ends with a normal result (00_scope.md R14, 46_control.md R190). -/
def State.halt (s : State) : State := s.setRunStatus .halted

/-- What a fault leaves (60_exceptions.md R206, R207): run() has ended with the fault's info, and no
register, flag, PC or byte of memory changes. Nothing is saved and no handler is entered: this block
takes no exception in the usual sense, and has no return from one (R208). -/
def State.stopWithFault (f : Fault) (s : State) : State := s.setRunStatus (.faulted f)

/-- The numeric fault codes (60_exceptions.md R200; log 13). -/
def Fault.code : Fault → Nat
  | .unimplementedOpcode _ _ => 1
  | .invalidAddressingMode _ _ => 2

/-- The opcode byte a fault records (R200). -/
def Fault.op : Fault → Byte
  | .unimplementedOpcode op _ => op
  | .invalidAddressingMode op _ => op

/-- The address a fault records (R200). -/
def Fault.opAddr : Fault → Addr
  | .unimplementedOpcode _ opAddr => opAddr
  | .invalidAddressingMode _ opAddr => opAddr

end Sys2Proof.Machine
end

