-- ==== Sys2Proof/Machine/Flags.lean ====
section
/-! DEFINITION. The status flags and the flag updater (10_state.md R26, 41_flag_updater.md). -/

namespace Sys2Proof.Machine

/-- The four flags of the status register in use (R26). -/
inductive Flag where
  | c | z | v | n
  deriving DecidableEq, Repr

/-- The bit of status a flag is (R12, R26). -/
def Flag.bit : Flag → Nat
  | .c => 0
  | .z => 1
  | .v => 6
  | .n => 7

/-- A flag's value in a status byte. -/
def getFlag (f : Flag) (st : Byte) : Bool := st.getLsbD f.bit

/-- A status byte with one flag set to `b` and every other bit kept (R106). -/
def setFlag (f : Flag) (b : Bool) (st : Byte) : Byte :=
  if b then st ||| (1#8 <<< f.bit) else st &&& ~~~(1#8 <<< f.bit)

/-- A flag's value in the state. -/
def State.flag (f : Flag) (s : State) : Bool := getFlag f s.status

/-- The state with one flag set to `b`. -/
def State.setFlag (f : Flag) (b : Bool) (s : State) : State := s.setStatus (Machine.setFlag f b s.status)

/-- `apply_zero_negative(v)` on a status byte (R100): Z and N are always overwritten, no other bit is. -/
def zeroNegative (v : Byte) (st : Byte) : Byte := setFlag .n v.msb (setFlag .z (v == 0) st)

/-- `apply_zero_negative(v)`. -/
def State.applyZeroNegative (v : Byte) (s : State) : State := s.setStatus (zeroNegative v s.status)

/-- What an addition or subtraction gives: result, carry-out and overflow (R102, R103). -/
structure AluResult where
  result : Byte
  carry : Bool
  overflow : Bool
  deriving DecidableEq, Repr

/-- `add_with_carry(a, m, c)` (R102), from the 9-bit sum. -/
def addWithCarry (a m : Byte) (c : Bool) : AluResult :=
  let sum : Nat := a.toNat + m.toNat + c.toNat
  let r : Byte := BitVec.ofNat 8 sum
  { result := r
    carry := decide (255 < sum)
    overflow := (a.msb == m.msb) && (r.msb != a.msb) }

/-- `sub_with_borrow(a, m, c)` (R103), from the exact difference; a set carry-in means no borrow. -/
def subWithBorrow (a m : Byte) (c : Bool) : AluResult :=
  let diff : Int := (a.toNat : Int) - m.toNat - (1 - c.toNat)
  let r : Byte := BitVec.ofInt 8 diff
  { result := r
    carry := decide (0 ≤ diff)
    overflow := (a.msb != m.msb) && (r.msb != a.msb) }

/-- A result written to A with C, V, Z and N, in the order of 45_arithmetic.md R180 and R181. -/
def State.setAluResult (r : AluResult) (s : State) : State :=
  (((s.setA r.result).setFlag .c r.carry).setFlag .v r.overflow).applyZeroNegative r.result

end Sys2Proof.Machine
end

