-- ==== Sys2Proof/Machine/Arithmetic.lean ====
section
/-! DEFINITION. ADC and SBC, immediate only (45_arithmetic.md). -/

namespace Sys2Proof.Machine

/-- ADC Immediate, `69 nn` (R180): always binary (41_flag_updater.md R104). -/
def execAdcImm (imm : Byte) (s : State) : Host.Outcome State Fault Refusal :=
  .next ((s.setAluResult (addWithCarry s.a imm (s.flag .c))).advancePc .immediate)

/-- SBC Immediate, `E9 nn` (R181; log 12 on the example of 90_conflicts.md C1). -/
def execSbcImm (imm : Byte) (s : State) : Host.Outcome State Fault Refusal :=
  .next ((s.setAluResult (subWithBorrow s.a imm (s.flag .c))).advancePc .immediate)

end Sys2Proof.Machine
end

