-- ==== Sys2Proof/Machine/Control.lean ====
section
/-! DEFINITION. BRK, the one control instruction (46_control.md). -/

namespace Sys2Proof.Machine

/-- BRK, `00` (R190): PC past the opcode byte, then halt. No stack push, no vector, no flag. -/
def execBrk (s : State) : Host.Outcome State Fault Refusal :=
  .next (s.advancePc .noneAddressing).halt

end Sys2Proof.Machine
end

