-- ==== Sys2Proof/Machine/Operands.lean ====
section
/-! DEFINITION. The addressing-mode resolver (40_addressing.md). One function per mode gives the
effective address from the operand and the index registers; `resolve` is the resolver as the spec
states it, reading the operand bytes from memory. -/

namespace Sys2Proof.Machine

/-! ### Effective addresses (R82 to R89) -/

/-- ZeroPage (R82). -/
def eaZeroPage (zp : Byte) : Addr := zext16 zp

/-- ZeroPage_X (R83): the sum wraps modulo 256 and stays within page 0. -/
def eaZeroPageX (zp : Byte) (s : State) : Addr := zext16 (zp + s.x)

/-- ZeroPage_Y (R84): defined by the resolver, selected by no opcode (log 14). -/
def eaZeroPageY (zp : Byte) (s : State) : Addr := zext16 (zp + s.y)

/-- Absolute (R85). -/
def eaAbsolute (addr : Addr) : Addr := addr

/-- Absolute_X (R86): the index is an unsigned byte, and the sum wraps modulo 65536. -/
def eaAbsoluteX (addr : Addr) (s : State) : Addr := addr + zext16 s.x

/-- Absolute_Y (R87). -/
def eaAbsoluteY (addr : Addr) (s : State) : Addr := addr + zext16 s.y

/-- The two pointer bytes at `p` and `(p + 1) mod 256` of the zero page, low byte first (R88, R89). -/
def zeroPagePointer (p : Byte) (s : State) : Addr :=
  joinBytes (s.memRead (zext16 (p + 1))) (s.memRead (zext16 p))

/-- Indirect_X (R88): the index is added to the base modulo 256 before the pointer is read. -/
def eaIndirectX (zp : Byte) (s : State) : Addr := zeroPagePointer (zp + s.x) s

/-- Indirect_Y (R89): the index is added to the pointer, modulo 65536, after it is read. -/
def eaIndirectY (zp : Byte) (s : State) : Addr := zeroPagePointer zp s + zext16 s.y

/-! ### The resolver -/

/-- `resolve(mode, pc)` for the instruction whose opcode byte is at `opAddr`, so that pc is
`(opAddr + 1) mod 65536` (R80). It reads memory and changes nothing. -/
def resolve (m : Mode) (opAddr : Addr) (s : State) : Except Fault Addr :=
  let pc := opAddr + 1
  match m with
  | .noneAddressing => .error (.invalidAddressingMode (s.memRead opAddr) opAddr)
  | .immediate => .ok pc
  | .zeroPage => .ok (eaZeroPage (s.memRead pc))
  | .zeroPageX => .ok (eaZeroPageX (s.memRead pc) s)
  | .zeroPageY => .ok (eaZeroPageY (s.memRead pc) s)
  | .absolute => .ok (eaAbsolute (s.memRead16 pc))
  | .absoluteX => .ok (eaAbsoluteX (s.memRead16 pc) s)
  | .absoluteY => .ok (eaAbsoluteY (s.memRead16 pc) s)
  | .indirectX => .ok (eaIndirectX (s.memRead pc) s)
  | .indirectY => .ok (eaIndirectY (s.memRead pc) s)

/-- The address an instruction stores to, for the seven forms of STA; the other instructions store
nothing (43_load_store.md R150 to R157). -/
def storeAddress : Instr → State → Option Addr
  | .staIndX zp, s => some (eaIndirectX zp s)
  | .staZp zp, _ => some (eaZeroPage zp)
  | .staAbs addr, _ => some (eaAbsolute addr)
  | .staIndY zp, s => some (eaIndirectY zp s)
  | .staZpX zp, s => some (eaZeroPageX zp s)
  | .staAbsY addr, s => some (eaAbsoluteY addr s)
  | .staAbsX addr, s => some (eaAbsoluteX addr s)
  | .brk, _ => none
  | .adcImm _, _ => none
  | .ldaIndX _, _ => none
  | .ldaZp _, _ => none
  | .ldaImm _, _ => none
  | .tax, _ => none
  | .ldaAbs _, _ => none
  | .ldaIndY _, _ => none
  | .ldaZpX _, _ => none
  | .ldaAbsY _, _ => none
  | .ldaAbsX _, _ => none
  | .inx, _ => none
  | .sbcImm _, _ => none

end Sys2Proof.Machine
end

