-- ==== Sys2Proof/Machine/LoadStore.lean ====
section
/-! DEFINITION. LDA in its 8 modes and STA in its 7 (43_load_store.md). -/

namespace Sys2Proof.Machine

/-- What every LDA does with the byte it read (R140): A, then Z and N from the new A, then the PC advance
of the mode. -/
def loadAccumulator (m : Mode) (v : Byte) (s : State) : State :=
  ((s.setA v).applyZeroNegative v).advancePc m

/-- What every STA does at its effective address (R150): the byte A, and the PC advance of the mode. -/
def storeAccumulator (m : Mode) (ea : Addr) (s : State) : State :=
  (s.memWrite ea s.a).advancePc m

/-- LDA Indirect_X, `A1 nn` (R141). -/
def execLdaIndX (zp : Byte) (s : State) : Host.Outcome State Fault Refusal :=
  .next (loadAccumulator .indirectX (s.memRead (eaIndirectX zp s)) s)

/-- LDA ZeroPage, `A5 nn` (R142). -/
def execLdaZp (zp : Byte) (s : State) : Host.Outcome State Fault Refusal :=
  .next (loadAccumulator .zeroPage (s.memRead (eaZeroPage zp)) s)

/-- LDA Immediate, `A9 nn` (R143): the operand is the byte at pc1, which is nn (log 8). -/
def execLdaImm (imm : Byte) (s : State) : Host.Outcome State Fault Refusal :=
  .next (loadAccumulator .immediate imm s)

/-- LDA Absolute, `AD ll hh` (R144). -/
def execLdaAbs (addr : Addr) (s : State) : Host.Outcome State Fault Refusal :=
  .next (loadAccumulator .absolute (s.memRead (eaAbsolute addr)) s)

/-- LDA Indirect_Y, `B1 nn` (R145). -/
def execLdaIndY (zp : Byte) (s : State) : Host.Outcome State Fault Refusal :=
  .next (loadAccumulator .indirectY (s.memRead (eaIndirectY zp s)) s)

/-- LDA ZeroPage_X, `B5 nn` (R146). -/
def execLdaZpX (zp : Byte) (s : State) : Host.Outcome State Fault Refusal :=
  .next (loadAccumulator .zeroPageX (s.memRead (eaZeroPageX zp s)) s)

/-- LDA Absolute_Y, `B9 ll hh` (R147). -/
def execLdaAbsY (addr : Addr) (s : State) : Host.Outcome State Fault Refusal :=
  .next (loadAccumulator .absoluteY (s.memRead (eaAbsoluteY addr s)) s)

/-- LDA Absolute_X, `BD ll hh` (R148). -/
def execLdaAbsX (addr : Addr) (s : State) : Host.Outcome State Fault Refusal :=
  .next (loadAccumulator .absoluteX (s.memRead (eaAbsoluteX addr s)) s)

/-- STA Indirect_X, `81 nn` (R151). -/
def execStaIndX (zp : Byte) (s : State) : Host.Outcome State Fault Refusal :=
  .next (storeAccumulator .indirectX (eaIndirectX zp s) s)

/-- STA ZeroPage, `85 nn` (R152). -/
def execStaZp (zp : Byte) (s : State) : Host.Outcome State Fault Refusal :=
  .next (storeAccumulator .zeroPage (eaZeroPage zp) s)

/-- STA Absolute, `8D ll hh` (R153). -/
def execStaAbs (addr : Addr) (s : State) : Host.Outcome State Fault Refusal :=
  .next (storeAccumulator .absolute (eaAbsolute addr) s)

/-- STA Indirect_Y, `91 nn` (R154). -/
def execStaIndY (zp : Byte) (s : State) : Host.Outcome State Fault Refusal :=
  .next (storeAccumulator .indirectY (eaIndirectY zp s) s)

/-- STA ZeroPage_X, `95 nn` (R155). -/
def execStaZpX (zp : Byte) (s : State) : Host.Outcome State Fault Refusal :=
  .next (storeAccumulator .zeroPageX (eaZeroPageX zp s) s)

/-- STA Absolute_Y, `99 ll hh` (R156). -/
def execStaAbsY (addr : Addr) (s : State) : Host.Outcome State Fault Refusal :=
  .next (storeAccumulator .absoluteY (eaAbsoluteY addr s) s)

/-- STA Absolute_X, `9D ll hh` (R157). -/
def execStaAbsX (addr : Addr) (s : State) : Host.Outcome State Fault Refusal :=
  .next (storeAccumulator .absoluteX (eaAbsoluteX addr s) s)

end Sys2Proof.Machine
end

