-- ==== Sys2Proof/Machine/RegisterOps.lean ====
section
/-! DEFINITION. TAX and INX (44_register_ops.md). -/

namespace Sys2Proof.Machine

/-- X written, Z and N from the new X, and the PC advance of width 0 (R170, R171). -/
def writeIndexX (v : Byte) (s : State) : State :=
  ((s.setX v).applyZeroNegative v).advancePc .noneAddressing

/-- TAX, `AA` (R170). -/
def execTax (s : State) : Host.Outcome State Fault Refusal := .next (writeIndexX s.a s)

/-- INX, `E8` (R171): X + 1 modulo 256; C and V are not written. -/
def execInx (s : State) : Host.Outcome State Fault Refusal := .next (writeIndexX (s.x + 1) s)

end Sys2Proof.Machine
end

