-- ==== Sys2Proof/Machine/Engine.lean ====
section
/-! DEFINITION. Fetch and decode as `step` uses them, and when the engine is stopped
(42_execution_engine.md R121, R122; 10_state.md R34; 60_exceptions.md R215). -/

namespace Sys2Proof.Machine

/-- The opcode byte at PC and the two bytes after it, modulo 65536 (R121, 30_encoding.md R60). Reads have no
side effect, so reading a byte the instruction does not have cannot be observed (log 9). -/
def State.fetchBytes (s : State) : List Byte :=
  [s.memRead s.pc, s.memRead (s.pc + 1), s.memRead (s.pc + 2)]

/-- The instruction at PC, or the fault of an opcode byte with no entry (R122, 60_exceptions.md R201).
With three bytes the decoder has no other error. -/
def State.fetchInstr (s : State) : Except Fault Instr :=
  match decode s.fetchBytes with
  | .ok (i, _) => .ok i
  | .error _ => .error (.unimplementedOpcode (s.memRead s.pc) s.pc)

/-- Whether `run()` has returned, so that the engine does nothing until the host calls it again (R128,
R215; log 6). -/
def State.engineStopped (s : State) : Bool :=
  match s.runStatus with
  | .idle => false
  | .running => false
  | .halted => true
  | .faulted _ => true

/-- `run()` is executing (10_state.md R34): the host's call of `run()`, whatever the status before it. -/
def State.beginRun (s : State) : State := s.setRunStatus .running

end Sys2Proof.Machine
end

