-- ==== Sys2Proof/Machine/Step.lean ====
section
/-! DEFINITION. One step of the engine (42_execution_engine.md R120), inside a call of `run()`. -/

namespace Sys2Proof.Machine

/-- One whole instruction: fetch, decode, execute and PC advance (R120). A step from Idle is the first
step of the run() the host calls. When run() has ended, Halted or Faulted, the engine is stopped and
nothing changes (60_exceptions.md R215; log 6). -/
def step (s : State) : Host.Outcome State Fault Refusal :=
  if s.engineStopped then .next s
  else
    match s.fetchInstr with
    | .ok i => exec i s.beginRun
    | .error f => .fault f

/-- The state with a table word stored where the next step fetches, at PC, and with run() executing, so
that the next step runs it (log 7). -/
def State.withFetchWord (s : State) (nbits w : Nat) : State :=
  (s.writeBytes s.pc (tableBytes nbits w)).beginRun

end Sys2Proof.Machine
end

