-- ==== Sys2Proof/Machine/HostOps.lean ====
section
/-! DEFINITION. The host's operations on the block (70_reset_and_hazards.md R230 to R237) and `run()`
(42_execution_engine.md R128). `new()` is `State.new`. `load`, `hostReset` and `run` are what the operations
do; the host asks for them through `applyHostOp` and `hostRun`, which, like `loadAndRun` and `hostInspect`,
answer an error while `run()` executes (log 16). -/

namespace Sys2Proof.Machine

/-- Errors of a host operation; none is a CPU fault (R233). -/
inductive HostError where
  /-- `load` was given a program of `n` bytes, more than MAX_PROGRAM_LEN (R233). -/
  | programTooLarge (n : Nat)
  /-- An operation or a read was asked for while `run()` executes, when the host cannot act (R230, R237; the
  model's own, log 16). -/
  | engineRunning
  deriving DecidableEq, Repr

/-- What the host is answered when it asks for something with answer `r`. It acts only while `run()` is not
executing (R230, R237, 20_memory.md R57). The spec gives no result for an operation asked for in run status
Running; that it is refused with the error `engineRunning`, and no state, is the model's choice (log 16). -/
def State.betweenRuns {α : Type} (s : State) (r : Except HostError α) : Except HostError α :=
  if s.runStatus = .running then .error .engineRunning else r

/-! ### load and reset -/

/-- What `load(program)` does (R232, R233): the program at LOAD_BASE, then the reset vector; refused whole
when it does not fit (log 10). -/
def load (p : List Byte) (s : State) : Except HostError State :=
  if programFits p then
    .ok ((s.writeBytes Config.loadBase p).memWrite16 Config.resetVectorAddr Config.resetVectorValue)
  else .error (.programTooLarge p.length)

/-- What `reset()` does (R234): A, X, Y and status zero, PC from the reset vector, memory untouched (log 11), and
the run status Idle (10_state.md R36). -/
def hostReset (s : State) : State :=
  { a := 0x00, x := 0x00, y := 0x00, status := 0x00, pc := s.memRead16 Config.resetVectorAddr,
    mem := s.mem, runStatus := .idle }

/-! ### run() -/

/-- What `run()` returns to the host (R128). -/
inductive RunResult where
  /-- `Ok(Halted)`. -/
  | okHalted
  /-- `Err(info)`. -/
  | err (info : Fault)
  /-- No result of the block: the model refused an instruction. Never returned
  (every arm of `exec` has a meaning). -/
  | refused (r : Refusal)
  deriving DecidableEq, Repr

/-- A call of `run()` watched for a number of steps: it has returned, or it is still executing. -/
inductive RunProgress where
  | returned (r : RunResult) (s : State)
  | executing (s : State)
  deriving DecidableEq, Repr

/-- The loop of `run()` (R128), at most `n` steps of it. The bound is the watcher's, not the block's: a
run that has not returned is still `executing` (R129; log 15). -/
def runLoop : Nat → State → RunProgress
  | 0, s => .executing s
  | n + 1, s =>
    match step s with
    | .next s' => if s'.runStatus = .halted then .returned .okHalted s' else runLoop n s'
    | .fault f => .returned (.err f) (s.stopWithFault f)
    | .refused r => .returned (.refused r) s

/-- What a call of `run()` does, from the current PC, whatever the status the last call ended with (R34,
R208). On a state in run status Running it is the rest of the call that executes, and no new one: the host
cannot ask for one then (`hostRun`; log 16). -/
def run (n : Nat) (s : State) : RunProgress := runLoop n s.beginRun

/-- The host's `run()` (R230). In run status Running it is refused, by the model's choice (log 16). -/
def hostRun (n : Nat) (s : State) : Except HostError RunProgress := s.betweenRuns (.ok (run n s))

/-- The host's `load_and_run(program)` (R236): load, reset, run; a refused load ends it (log 10). In run
status Running it is refused and nothing is written, by the model's choice (log 16). -/
def loadAndRun (n : Nat) (p : List Byte) (s : State) : Except HostError RunProgress :=
  s.betweenRuns
    (match load p s with
    | .ok s' => .ok (run n (hostReset s'))
    | .error e => .error e)

/-- run() returns `r` and leaves `s'` (R128). -/
def RunReturns (s : State) (r : RunResult) (s' : State) : Prop := ∃ n, run n s = .returned r s'

/-- run() never returns (R129). -/
def RunsForever (s : State) : Prop := ∀ n, ∃ s', run n s = .executing s'

/-! ### Direct access (R237) -/

/-- What the host may do to the state between calls of `run()`, beside `run()` and `load_and_run`. -/
inductive HostOp where
  | load (p : List Byte)
  | reset
  | writeA (v : Byte)
  | writeX (v : Byte)
  | writeY (v : Byte)
  | writeStatus (v : Byte)
  | writePc (v : Addr)
  | memWrite (a : Addr) (v : Byte)
  | memWrite16 (a : Addr) (v : Addr)
  deriving DecidableEq, Repr

/-- The effect of a host operation. In run status Running it is refused, by the model's choice (log 16). -/
def applyHostOp (op : HostOp) (s : State) : Except HostError State :=
  s.betweenRuns
    (match op with
    | .load p => Machine.load p s
    | .reset => .ok (hostReset s)
    | .writeA v => .ok (s.setA v)
    | .writeX v => .ok (s.setX v)
    | .writeY v => .ok (s.setY v)
    | .writeStatus v => .ok (s.setStatus v)
    | .writePc v => .ok (s.setPc v)
    | .memWrite a v => .ok (s.memWrite a v)
    | .memWrite16 a v => .ok (s.memWrite16 a v))

/-- What the host may inspect between calls of `run()`: the registers, and memory through MemRead at widths 1
and 2 (20_memory.md R57). -/
inductive HostRead where
  | a
  | x
  | y
  | status
  | pc
  | memRead (addr : Addr)
  | memRead16 (addr : Addr)
  deriving DecidableEq, Repr

/-- A value the host reads. -/
inductive HostValue where
  | byte (v : Byte)
  | word (v : Addr)
  deriving DecidableEq, Repr

/-- What a read sees. -/
def HostRead.value (q : HostRead) (s : State) : HostValue :=
  match q with
  | .a => .byte s.a
  | .x => .byte s.x
  | .y => .byte s.y
  | .status => .byte s.status
  | .pc => .word s.pc
  | .memRead addr => .byte (s.memRead addr)
  | .memRead16 addr => .word (s.memRead16 addr)

/-- A read by the host, which changes nothing (20_memory.md R41, R43). In run status Running it is refused, by
the model's choice (log 16). -/
def hostInspect (q : HostRead) (s : State) : Except HostError HostValue := s.betweenRuns (.ok (q.value s))

end Sys2Proof.Machine
end

