-- ==== Sys2Proof/Safety.lean ====
section
/-! DEFINITION. What counts as a safe run, in the terms claims use, and the machine's invariant. -/

namespace Sys2Proof.Machine

/-- The invariant: the memory is in canonical form. Every value of every register, of status and of PC is
legal (10_state.md R25, R32), so the state has no other. -/
def State.Inv (s : State) : Prop := Memory.wf s.mem = true

/-- `k` steps of the machine meet no fault and no refusal. -/
def SafeFor (k : Nat) (s : State) : Prop := ∃ t : State, Host.Core.run core k s = .next t

/-- No number of steps meets a fault or a refusal. -/
def Safe (s : State) : Prop := ∀ k, SafeFor k s

/-- The machine comes to a halt: a BRK is executed (46_control.md R190). -/
def Halts (s : State) : Prop := ∃ k, ∃ t : State, Host.Core.run core k s = .next t ∧ t.runStatus = .halted

end Sys2Proof.Machine
end

