-- ==== Sys2Proof/Certificates/Slice0/Obligations.lean ====
section
/-! DEFINITION. The statements for the provers. `Sys2Proof.Claims` spells out, in the natural-number
arithmetic of the spec's pseudocode (00_scope.md R10), what the statements compare the machine with. -/

namespace Sys2Proof.Claims

open Sys2Proof.Machine

/-! ### The spec's own arithmetic -/

/-- mem[n mod 65536]. -/
def byteAt (s : State) (n : Nat) : Byte := s.memRead (BitVec.ofNat 16 n)

/-- `hi : lo` (R10). -/
def wordOf (hi lo : Byte) : Nat := hi.toNat * 256 + lo.toNat

/-- The zero-page pointer at `p`: its high byte is at `(p + 1) mod 256` (R88, R89). -/
def pointerAt (p : Nat) (s : State) : Nat := wordOf (byteAt s ((p + 1) % 256)) (byteAt s p)

/-- ZeroPage_X (R83). -/
def zeroPageXAt (nn : Byte) (s : State) : Nat := (nn.toNat + s.x.toNat) % 256

/-- Absolute_X (R86). -/
def absoluteXAt (base : Nat) (s : State) : Nat := (base + s.x.toNat) % 65536

/-- Absolute_Y (R87). -/
def absoluteYAt (base : Nat) (s : State) : Nat := (base + s.y.toNat) % 65536

/-- Indirect_X (R88). -/
def indirectXAt (nn : Byte) (s : State) : Nat := pointerAt ((nn.toNat + s.x.toNat) % 256) s

/-- Indirect_Y (R89). -/
def indirectYAt (nn : Byte) (s : State) : Nat := (pointerAt nn.toNat s + s.y.toNat) % 65536

/-- The 20 opcode bytes in scope (R2, R63). -/
def opcodesInScope : List Byte :=
  [0x00, 0x69, 0x81, 0x85, 0x8D, 0x91, 0x95, 0x99, 0x9D, 0xA1, 0xA5, 0xA9, 0xAA, 0xAD, 0xB1, 0xB5,
   0xB9, 0xBD, 0xE8, 0xE9]

/-! ### What a statement says of two states -/

/-- Bytes at consecutive addresses modulo 65536, lowest first (R60). -/
def BytesAt : Addr → List Byte → State → Prop
  | _, [], _ => True
  | a, b :: bytes, s => s.memRead a = b ∧ BytesAt (a + 1) bytes s

/-- `t`'s PC is `s`'s plus `n`, modulo 65536. -/
def PcAdvanced (n : Nat) (s t : State) : Prop := t.pc.toNat = (s.pc.toNat + n) % 65536

/-- Every byte of memory reads as before. -/
def SameMemory (s t : State) : Prop := ∀ k, t.memRead k = s.memRead k

/-- Z and N of a status byte are those of a value (R100). -/
def ZeroNegativeOf (v : Byte) (st : Byte) : Prop :=
  st.getLsbD 1 = decide (v.toNat = 0) ∧ st.getLsbD 7 = v.getLsbD 7

/-- The bytes are the instruction's encoding, and wherever they stand at PC while run() executes, a step
executes the instruction. -/
def StandsFor (bytes : List Byte) (i : Instr) : Prop :=
  encode i = bytes ∧ ∀ s : State, s.runStatus = .running → BytesAt s.pc bytes s → step s = exec i s

/-- What an LDA that reads `v` does, with its frame (R140): `n` is the instruction's length. -/
structure LoadEffect (v : Byte) (n : Nat) (s t : State) : Prop where
  a : t.a = v
  x : t.x = s.x
  y : t.y = s.y
  zeroNegative : ZeroNegativeOf v t.status
  otherFlags : ∀ k, k ≠ 1 → k ≠ 7 → t.status.getLsbD k = s.status.getLsbD k
  pc : PcAdvanced n s t
  memory : SameMemory s t
  runStatus : t.runStatus = s.runStatus

/-- What an STA to `ea` does, with its frame (R150): one byte of memory changes, and PC. -/
structure StoreEffect (ea : Addr) (n : Nat) (s t : State) : Prop where
  stored : t.memRead ea = s.a
  otherBytes : ∀ k, k ≠ ea → t.memRead k = s.memRead k
  a : t.a = s.a
  x : t.x = s.x
  y : t.y = s.y
  status : t.status = s.status
  pc : PcAdvanced n s t
  runStatus : t.runStatus = s.runStatus

/-- What a write of `v` to X by TAX or INX does, with its frame (R170, R171). -/
structure IndexEffect (v : Byte) (s t : State) : Prop where
  x : t.x = v
  a : t.a = s.a
  y : t.y = s.y
  zeroNegative : ZeroNegativeOf v t.status
  otherFlags : ∀ k, k ≠ 1 → k ≠ 7 → t.status.getLsbD k = s.status.getLsbD k
  pc : PcAdvanced 1 s t
  memory : SameMemory s t
  runStatus : t.runStatus = s.runStatus

/-- What ADC and SBC do with result `r`, carry-out `c` and overflow `v`, with their frame (R180, R181). -/
structure ArithmeticEffect (r : Nat) (c v : Prop) (s t : State) : Prop where
  a : t.a.toNat = r
  x : t.x = s.x
  y : t.y = s.y
  carry : t.status.getLsbD 0 = true ↔ c
  overflow : t.status.getLsbD 6 = true ↔ v
  zeroNegative : ZeroNegativeOf t.a t.status
  reserved : ∀ k, 2 ≤ k → k ≤ 5 → t.status.getLsbD k = s.status.getLsbD k
  pc : PcAdvanced 2 s t
  memory : SameMemory s t
  runStatus : t.runStatus = s.runStatus

/-- One form of LDA: its bytes, and the byte it reads. -/
def LoadForm (i : Instr) (bytes : List Byte) (value : State → Byte) : Prop :=
  StandsFor bytes i ∧ ∀ s, ∃ t, exec i s = .next t ∧ LoadEffect (value s) bytes.length s t

/-- One form of STA: its bytes, the model's function for the address it stores to, and the spec's. -/
def StoreForm (i : Instr) (bytes : List Byte) (ea : State → Addr) (specEa : State → Nat) : Prop :=
  StandsFor bytes i ∧ ∀ s, (ea s).toNat = specEa s ∧
    ∃ t, exec i s = .next t ∧ StoreEffect (ea s) bytes.length s t

/-- Two states alike in everything but status. -/
def SameButStatus (s t : State) : Prop :=
  t.a = s.a ∧ t.x = s.x ∧ t.y = s.y ∧ t.pc = s.pc ∧ t.mem = s.mem ∧ t.runStatus = s.runStatus

end Sys2Proof.Claims

open Sys2Proof Sys2Proof.Machine Sys2Proof.Claims

/-! ### Encoding -/

/-- R63 and R62 on a few words written out from the opcode map. A sanity statement. That 0x9D is STA abs,X and
0xB1 LDA (zp),Y the spec marks as its own (D4, log 4). -/
def Obligations.SampleBytesDecodeAsTheOpcodeMapSays : Prop :=
  decode [0x00] = .ok (.brk, []) ∧
  decode [0x69, 0x10] = .ok (.adcImm 0x10, []) ∧
  decode [0x9D, 0xFE, 0xFF] = .ok (.staAbsX 0xFFFE, []) ∧
  decode [0xB1, 0x20, 0x00] = .ok (.ldaIndY 0x20, [0x00]) ∧
  decode [0xAA, 0xE8] = .ok (.tax, [0xE8]) ∧
  decode [0xE8] = .ok (.inx, []) ∧
  decode [0xE9, 0x02] = .ok (.sbcImm 0x02, []) ∧
  decode [0x89, 0x10] = .error (.unimplementedOpcode 0x89)

/-- The opcode map R63: the 20 rows, opcode byte, mnemonic, mode and length (the bytes taken), with abs16 low
byte first, and no other byte in the table. The spec marks the modes of thirteen of the LDA and STA bytes
as its own (D4, log 4). -/
def Obligations.OpcodeMapHasExactlyTheTwentyRows : Prop :=
  (∀ (n h : Byte) (rest : List Byte),
    (decode (0x00 :: rest) = .ok (.brk, rest) ∧ Instr.brk.entry = ⟨.brk, .noneAddressing⟩) ∧
    (decode (0x69 :: n :: rest) = .ok (.adcImm n, rest) ∧ (Instr.adcImm n).entry = ⟨.adc, .immediate⟩) ∧
    (decode (0x81 :: n :: rest) = .ok (.staIndX n, rest) ∧ (Instr.staIndX n).entry = ⟨.sta, .indirectX⟩) ∧
    (decode (0x85 :: n :: rest) = .ok (.staZp n, rest) ∧ (Instr.staZp n).entry = ⟨.sta, .zeroPage⟩) ∧
    (decode (0x8D :: n :: h :: rest) = .ok (.staAbs (joinBytes h n), rest) ∧
      (Instr.staAbs (joinBytes h n)).entry = ⟨.sta, .absolute⟩) ∧
    (decode (0x91 :: n :: rest) = .ok (.staIndY n, rest) ∧ (Instr.staIndY n).entry = ⟨.sta, .indirectY⟩) ∧
    (decode (0x95 :: n :: rest) = .ok (.staZpX n, rest) ∧ (Instr.staZpX n).entry = ⟨.sta, .zeroPageX⟩) ∧
    (decode (0x99 :: n :: h :: rest) = .ok (.staAbsY (joinBytes h n), rest) ∧
      (Instr.staAbsY (joinBytes h n)).entry = ⟨.sta, .absoluteY⟩) ∧
    (decode (0x9D :: n :: h :: rest) = .ok (.staAbsX (joinBytes h n), rest) ∧
      (Instr.staAbsX (joinBytes h n)).entry = ⟨.sta, .absoluteX⟩) ∧
    (decode (0xA1 :: n :: rest) = .ok (.ldaIndX n, rest) ∧ (Instr.ldaIndX n).entry = ⟨.lda, .indirectX⟩) ∧
    (decode (0xA5 :: n :: rest) = .ok (.ldaZp n, rest) ∧ (Instr.ldaZp n).entry = ⟨.lda, .zeroPage⟩) ∧
    (decode (0xA9 :: n :: rest) = .ok (.ldaImm n, rest) ∧ (Instr.ldaImm n).entry = ⟨.lda, .immediate⟩) ∧
    (decode (0xAA :: rest) = .ok (.tax, rest) ∧ Instr.tax.entry = ⟨.tax, .noneAddressing⟩) ∧
    (decode (0xAD :: n :: h :: rest) = .ok (.ldaAbs (joinBytes h n), rest) ∧
      (Instr.ldaAbs (joinBytes h n)).entry = ⟨.lda, .absolute⟩) ∧
    (decode (0xB1 :: n :: rest) = .ok (.ldaIndY n, rest) ∧ (Instr.ldaIndY n).entry = ⟨.lda, .indirectY⟩) ∧
    (decode (0xB5 :: n :: rest) = .ok (.ldaZpX n, rest) ∧ (Instr.ldaZpX n).entry = ⟨.lda, .zeroPageX⟩) ∧
    (decode (0xB9 :: n :: h :: rest) = .ok (.ldaAbsY (joinBytes h n), rest) ∧
      (Instr.ldaAbsY (joinBytes h n)).entry = ⟨.lda, .absoluteY⟩) ∧
    (decode (0xBD :: n :: h :: rest) = .ok (.ldaAbsX (joinBytes h n), rest) ∧
      (Instr.ldaAbsX (joinBytes h n)).entry = ⟨.lda, .absoluteX⟩) ∧
    (decode (0xE8 :: rest) = .ok (.inx, rest) ∧ Instr.inx.entry = ⟨.inx, .noneAddressing⟩) ∧
    (decode (0xE9 :: n :: rest) = .ok (.sbcImm n, rest) ∧ (Instr.sbcImm n).entry = ⟨.sbc, .immediate⟩) ∧
    (joinBytes h n).toNat = wordOf h n) ∧
  (∀ (op : Byte) (rest : List Byte), op ∉ opcodesInScope →
    decode (op :: rest) = .error (.unimplementedOpcode op))

/-- Decoder and encoder agree both ways (R60, R61, R66): bytes decode to an instruction exactly when they
are its encoding followed by the rest. No bit of an encoding is dropped, and each instruction has one
encoding. -/
def Obligations.DecodeGivesInstrIffBytesAreItsEncoding : Prop :=
  ∀ (bytes : List Byte) (i : Instr) (rest : List Byte),
    decode bytes = .ok (i, rest) ↔ bytes = encode i ++ rest

/-! ### The step -/

/-- R120, R121, R124: while run() has not ended, a step executes the instruction that the bytes at PC decode
to. Around `exec` the step only notes that run() is executing (log 6). -/
def Obligations.StepExecutesTheInstructionAtPc : Prop :=
  ∀ (s : State) (i : Instr) (rest : List Byte), s.runStatus = .idle ∨ s.runStatus = .running →
    decode [s.memRead s.pc, s.memRead (s.pc + 1), s.memRead (s.pc + 2)] = .ok (i, rest) →
    step s = exec i { s with runStatus := .running }

/-- R125, R91: PC ends past the instruction's bytes, by the width of the mode fixed at decode, also when the
instruction stores over its own bytes; BRK leaves PC just after its opcode byte (R25). -/
def Obligations.PcAdvancesByTheWidthOfTheMode : Prop :=
  ∀ (s t : State) (i : Instr), s.runStatus = .running → BytesAt s.pc (encode i) s → step s = .next t →
    (i.mode = .noneAddressing → PcAdvanced 1 s t) ∧
    (i.mode = .immediate ∨ i.mode = .zeroPage ∨ i.mode = .zeroPageX ∨ i.mode = .zeroPageY ∨
      i.mode = .indirectX ∨ i.mode = .indirectY → PcAdvanced 2 s t) ∧
    (i.mode = .absolute ∨ i.mode = .absoluteX ∨ i.mode = .absoluteY → PcAdvanced 3 s t)

/-- R201, R207: an opcode byte out of scope faults with the byte and its address, whatever the bytes after it
are; run() then returns the fault, and PC, the registers, status and memory are as they were. That PC
is still the opcode's address is the spec's decision D3 (log 3). -/
def Obligations.UnimplementedOpcodeFaultsAndChangesNothing : Prop :=
  ∀ s : State, s.runStatus = .running → s.memRead s.pc ∉ opcodesInScope →
    step s = .fault (.unimplementedOpcode (s.memRead s.pc) s.pc) ∧
    ∀ n, ∃ t, runLoop (n + 1) s = .returned (.err (.unimplementedOpcode (s.memRead s.pc) s.pc)) t ∧
      t.pc = s.pc ∧ t.a = s.a ∧ t.x = s.x ∧ t.y = s.y ∧ t.status = s.status ∧ SameMemory s t ∧
      t.runStatus = .faulted (.unimplementedOpcode (s.memRead s.pc) s.pc)

/-- R201, R203, and R202 with the spec's decision D20 (log 14), by which InvalidAddressingMode is never raised:
the only fault of a step is UnimplementedOpcode, on an opcode byte out of scope and with that byte and its
address. That no step is refused is about the model alone. -/
def Obligations.StepFaultsOnlyOnAnUnimplementedOpcode : Prop :=
  (∀ (s : State) (f : Fault), step s = .fault f →
    f = .unimplementedOpcode (s.memRead s.pc) s.pc ∧ s.memRead s.pc ∉ opcodesInScope) ∧
  (∀ (s : State) (r : Refusal), step s ≠ .refused r)

/-! ### The resolver -/

/-- R81, R82, R83, R88, R89: the effective address of each in-scope mode whose operand is one byte, in the
pseudocode's arithmetic, from the operand byte at pc = (op_addr + 1) mod 65536. -/
def Obligations.ResolverWrapsZeroPageAndPointerSums : Prop :=
  ∀ (opAddr : Addr) (s : State),
    let pc := (opAddr.toNat + 1) % 65536
    let b := byteAt s pc
    resolve .immediate opAddr s = .ok (BitVec.ofNat 16 pc) ∧
    resolve .zeroPage opAddr s = .ok (BitVec.ofNat 16 b.toNat) ∧
    resolve .zeroPageX opAddr s = .ok (BitVec.ofNat 16 ((b.toNat + s.x.toNat) % 256)) ∧
    resolve .indirectX opAddr s = .ok (BitVec.ofNat 16 (indirectXAt b s)) ∧
    resolve .indirectY opAddr s = .ok (BitVec.ofNat 16 (indirectYAt b s))

/-- R84 to R87, R90: the effective address of the absolute modes and of ZeroPage_Y, and the fault of
NoneAddressing, which no other mode raises. The wrap of the high operand byte at 0xFFFF is the spec's
decision D1 (log 2); ZeroPage_Y, which no instruction has, its decision D14, and the info of the fault its
decision D20 (log 14). -/
def Obligations.ResolverGivesAbsoluteAddressesModulo65536 : Prop :=
  (∀ (opAddr : Addr) (s : State),
    let pc := (opAddr.toNat + 1) % 65536
    let w := wordOf (byteAt s ((pc + 1) % 65536)) (byteAt s pc)
    resolve .absolute opAddr s = .ok (BitVec.ofNat 16 w) ∧
    resolve .absoluteX opAddr s = .ok (BitVec.ofNat 16 ((w + s.x.toNat) % 65536)) ∧
    resolve .absoluteY opAddr s = .ok (BitVec.ofNat 16 ((w + s.y.toNat) % 65536)) ∧
    resolve .zeroPageY opAddr s = .ok (BitVec.ofNat 16 (((byteAt s pc).toNat + s.y.toNat) % 256))) ∧
  (∀ (m : Mode) (opAddr : Addr) (s : State) (f : Fault), resolve m opAddr s = .error f ↔
    m = .noneAddressing ∧ f = .invalidAddressingMode (s.memRead opAddr) opAddr) ∧
  (∀ i : Instr, i.mode ≠ .zeroPageY)

/-! ### Load and store -/

/-- R140: every LDA completes, reads one byte at the address the resolver gives for its mode and its operand
bytes in memory, and does to A, Z and N what that byte says and nothing else. -/
def Obligations.LdaReadsAtTheResolvedAddress : Prop :=
  ∀ (s : State) (i : Instr), s.runStatus = .running → BytesAt s.pc (encode i) s → i.handler = .lda →
    ∃ (ea : Addr) (t : State), resolve i.mode s.pc s = .ok ea ∧ step s = .next t ∧
      LoadEffect (s.memRead ea) (1 + i.mode.width) s t

/-- R141 to R148: the eight forms of LDA, each with its bytes, the byte it reads and its frame. The spec marks
the opcode bytes of all but LDA Immediate as its own (D4, log 4), and the operand at the top of memory
follows its decision D1 (log 2). -/
def Obligations.LdaFormsLoadTheByteOfTheirMode : Prop :=
  ∀ nn ll hh : Byte,
    LoadForm (.ldaIndX nn) [0xA1, nn] (fun s => byteAt s (indirectXAt nn s)) ∧
    LoadForm (.ldaZp nn) [0xA5, nn] (fun s => byteAt s nn.toNat) ∧
    LoadForm (.ldaImm nn) [0xA9, nn] (fun _ => nn) ∧
    LoadForm (.ldaAbs (joinBytes hh ll)) [0xAD, ll, hh] (fun s => byteAt s (wordOf hh ll)) ∧
    LoadForm (.ldaIndY nn) [0xB1, nn] (fun s => byteAt s (indirectYAt nn s)) ∧
    LoadForm (.ldaZpX nn) [0xB5, nn] (fun s => byteAt s (zeroPageXAt nn s)) ∧
    LoadForm (.ldaAbsY (joinBytes hh ll)) [0xB9, ll, hh] (fun s => byteAt s (absoluteYAt (wordOf hh ll) s)) ∧
    LoadForm (.ldaAbsX (joinBytes hh ll)) [0xBD, ll, hh] (fun s => byteAt s (absoluteXAt (wordOf hh ll) s))

/-- R150: every STA completes, writes A to the address the resolver gives for its mode and its operand bytes
in memory, and changes nothing else but PC, also when it writes over its own bytes. There is no
Immediate form: byte 0x89 is no opcode. -/
def Obligations.StaWritesAtTheResolvedAddress : Prop :=
  (∀ (s : State) (i : Instr), s.runStatus = .running → BytesAt s.pc (encode i) s → i.handler = .sta →
    ∃ (ea : Addr) (t : State), resolve i.mode s.pc s = .ok ea ∧ storeAddress i s = some ea ∧
      step s = .next t ∧ StoreEffect ea (1 + i.mode.width) s t) ∧
  (∀ s : State, s.runStatus = .running → s.memRead s.pc = 0x89 →
    step s = .fault (.unimplementedOpcode 0x89 s.pc))

/-- R151 to R157: the seven forms of STA, each with its bytes, the address it stores to and its frame. The
spec marks the opcode bytes of all but STA ZeroPage as its own (D4, log 4), and the operand at the top of
memory follows its decision D1 (log 2). -/
def Obligations.StaFormsStoreAtTheAddressOfTheirMode : Prop :=
  ∀ nn ll hh : Byte,
    StoreForm (.staIndX nn) [0x81, nn] (eaIndirectX nn) (indirectXAt nn) ∧
    StoreForm (.staZp nn) [0x85, nn] (fun _ => eaZeroPage nn) (fun _ => nn.toNat) ∧
    StoreForm (.staAbs (joinBytes hh ll)) [0x8D, ll, hh] (fun _ => eaAbsolute (joinBytes hh ll))
      (fun _ => wordOf hh ll) ∧
    StoreForm (.staIndY nn) [0x91, nn] (eaIndirectY nn) (indirectYAt nn) ∧
    StoreForm (.staZpX nn) [0x95, nn] (eaZeroPageX nn) (zeroPageXAt nn) ∧
    StoreForm (.staAbsY (joinBytes hh ll)) [0x99, ll, hh] (eaAbsoluteY (joinBytes hh ll))
      (absoluteYAt (wordOf hh ll)) ∧
    StoreForm (.staAbsX (joinBytes hh ll)) [0x9D, ll, hh] (eaAbsoluteX (joinBytes hh ll))
      (absoluteXAt (wordOf hh ll))

/-- R54 (which the spec marks as derived, with its decision D11; log 8): a byte an STA writes is what the very next fetch reads there, and the bytes around it are as before. -/
def Obligations.StoreIsSeenByTheNextFetch : Prop :=
  ∀ (s t : State) (i : Instr) (ea : Addr), s.runStatus = .running → BytesAt s.pc (encode i) s →
    storeAddress i s = some ea → step s = .next t →
    t.fetchBytes = [t.pc, t.pc + 1, t.pc + 2].map (fun k => if k = ea then s.a else s.memRead k)

/-! ### Register operations, arithmetic, control -/

/-- R170. -/
def Obligations.TaxCopiesAToX : Prop :=
  StandsFor [0xAA] .tax ∧ ∀ s, ∃ t, exec .tax s = .next t ∧ IndexEffect s.a s t

/-- R171. -/
def Obligations.InxIncrementsXModulo256 : Prop :=
  StandsFor [0xE8] .inx ∧ ∀ s, ∃ t, exec .inx s = .next t ∧
    IndexEffect (BitVec.ofNat 8 ((s.x.toNat + 1) % 256)) s t

/-- R180 with R102: the sum, its carry and its overflow; the operand is the byte at the address that
resolving Immediate gives. -/
def Obligations.AdcAddsWithCarry : Prop :=
  ∀ nn : Byte, StandsFor [0x69, nn] (.adcImm nn) ∧
    (∀ s : State, resolve .immediate s.pc s = .ok (s.pc + 1)) ∧
    ∀ s, ∃ t, exec (.adcImm nn) s = .next t ∧
      let sum := s.a.toNat + nn.toNat + (s.status.getLsbD 0).toNat
      ArithmeticEffect (sum % 256) (255 < sum)
        (s.a.getLsbD 7 = nn.getLsbD 7 ∧ (sum % 256).testBit 7 ≠ s.a.getLsbD 7) s t

/-- R181 with R103: the difference, no borrow as carry, and its overflow. -/
def Obligations.SbcSubtractsWithBorrow : Prop :=
  ∀ nn : Byte, StandsFor [0xE9, nn] (.sbcImm nn) ∧
    (∀ s : State, resolve .immediate s.pc s = .ok (s.pc + 1)) ∧
    ∀ s, ∃ t, exec (.sbcImm nn) s = .next t ∧
      let diff : Int := (s.a.toNat : Int) - nn.toNat - (1 - (s.status.getLsbD 0).toNat)
      ArithmeticEffect (diff % 256).toNat (0 ≤ diff)
        (s.a.getLsbD 7 ≠ nn.getLsbD 7 ∧ (diff % 256).toNat.testBit 7 ≠ s.a.getLsbD 7) s t

/-- R190: BRK leaves PC just after its byte, halts, and changes nothing else; run() returns Ok(Halted), and a
later run() continues after the BRK byte. The final PC the spec marks as derived, and the later run() is its
decision D6 (log 6). -/
def Obligations.BrkHaltsAfterItsByte : Prop :=
  StandsFor [0x00] .brk ∧
  (∀ s, ∃ t, exec .brk s = .next t ∧ PcAdvanced 1 s t ∧ t.runStatus = .halted ∧ t.a = s.a ∧ t.x = s.x ∧
    t.y = s.y ∧ t.status = s.status ∧ SameMemory s t) ∧
  (∀ s : State, s.runStatus = .running → s.memRead s.pc = 0x00 →
    ∃ t, exec .brk s = .next t ∧ (∀ n, runLoop (n + 1) s = .returned .okHalted t) ∧
      ∀ n, run n t = runLoop n { s with pc := s.pc + 1 })

/-! ### The flag updater -/

/-- R100: Z and N are overwritten from the value and no other bit is, and after every instruction that writes A
or X they are those of the value it wrote. -/
def Obligations.ZeroAndNegativeFollowTheValueWritten : Prop :=
  (∀ (v : Byte) (s : State), ZeroNegativeOf v (s.applyZeroNegative v).status ∧
    (∀ k, k ≠ 1 → k ≠ 7 → (s.applyZeroNegative v).status.getLsbD k = s.status.getLsbD k)) ∧
  (∀ (i : Instr) (s t : State), exec i s = .next t →
    (i.handler = .lda ∨ i.handler = .adc ∨ i.handler = .sbc → ZeroNegativeOf t.a t.status) ∧
    (i.handler = .tax ∨ i.handler = .inx → ZeroNegativeOf t.x t.status))

/-- R102, with the two readings the spec marks as derived: overflow is the signed sum out of range, carry the unsigned sum out of
range. -/
def Obligations.AddWithCarryIsExact : Prop :=
  ∀ (a m : Byte) (c : Bool),
    (addWithCarry a m c).result.toNat = (a.toNat + m.toNat + c.toNat) % 256 ∧
    ((addWithCarry a m c).carry = true ↔ 255 < a.toNat + m.toNat + c.toNat) ∧
    ((addWithCarry a m c).overflow = true ↔
      a.getLsbD 7 = m.getLsbD 7 ∧ (addWithCarry a m c).result.getLsbD 7 ≠ a.getLsbD 7) ∧
    (addWithCarry a m c).overflow =
      ((a ^^^ (addWithCarry a m c).result) &&& (m ^^^ (addWithCarry a m c).result)).getLsbD 7 ∧
    ((addWithCarry a m c).overflow = true ↔
      a.toInt + m.toInt + c.toNat < -128 ∨ 127 < a.toInt + m.toInt + c.toNat)

/-- R103, with the readings the spec marks as derived: it is the addition of the complement, and overflow is the signed difference out
of range. -/
def Obligations.SubWithBorrowIsExact : Prop :=
  ∀ (a m : Byte) (c : Bool),
    ((subWithBorrow a m c).result.toNat : Int) = ((a.toNat : Int) - m.toNat - (1 - c.toNat)) % 256 ∧
    ((subWithBorrow a m c).carry = true ↔ (0 : Int) ≤ (a.toNat : Int) - m.toNat - (1 - c.toNat)) ∧
    ((subWithBorrow a m c).overflow = true ↔
      a.getLsbD 7 ≠ m.getLsbD 7 ∧ (subWithBorrow a m c).result.getLsbD 7 ≠ a.getLsbD 7) ∧
    (subWithBorrow a m c).overflow =
      ((a ^^^ m) &&& (a ^^^ (subWithBorrow a m c).result)).getLsbD 7 ∧
    subWithBorrow a m c = addWithCarry a (~~~m) c ∧
    ((subWithBorrow a m c).overflow = true ↔
      a.toInt - m.toInt - (1 - c.toNat) < -128 ∨ 127 < a.toInt - m.toInt - (1 - c.toNat))

/-! ### Memory -/

/-- R42: a byte write sets that byte and changes no other byte and no register. -/
def Obligations.MemWriteChangesOneByte : Prop :=
  ∀ (s : State) (addr : Addr) (v : Byte),
    (s.memWrite addr v).memRead addr = v ∧
    (∀ k, k ≠ addr → (s.memWrite addr v).memRead k = s.memRead k) ∧
    (s.memWrite addr v).a = s.a ∧ (s.memWrite addr v).x = s.x ∧ (s.memWrite addr v).y = s.y ∧
    (s.memWrite addr v).status = s.status ∧ (s.memWrite addr v).pc = s.pc

/-- R43, R44, R45: two-byte accesses are little-endian with the high byte's address modulo 65536, and a word
written reads back. The wrap at 0xFFFF is the spec's decision D1 (log 2). -/
def Obligations.WordAccessIsLittleEndianAndWraps : Prop :=
  ∀ (s : State) (addr v : Addr),
    (s.memRead16 addr).toNat = wordOf (byteAt s ((addr.toNat + 1) % 65536)) (byteAt s addr.toNat) ∧
    (s.memWrite16 addr v).memRead16 addr = v ∧
    ((s.memWrite16 addr v).memRead addr).toNat = v.toNat % 256 ∧
    ((s.memWrite16 addr v).memRead (addr + 1)).toNat = v.toNat / 256 ∧
    (∀ k, k ≠ addr → k ≠ addr + 1 → (s.memWrite16 addr v).memRead k = s.memRead k) ∧
    s.memRead16 0xFFFF = joinBytes (s.memRead 0x0000) (s.memRead 0xFFFF)

/-- The model's memory is canonical: states that meet the invariant and read alike at all 65536 addresses hold
equal memories. (About the model's representation of R33, no rule of its own.) -/
def Obligations.CanonicalMemoriesThatReadAlikeAreEqual : Prop :=
  ∀ s t : State, s.Inv → t.Inv → (∀ k, s.memRead k = t.memRead k) → s.mem = t.mem

/-! ### Invariants and whole-machine rules -/

/-- The reset state meets the invariant. -/
def Obligations.ResetStateMeetsTheInvariant : Prop := State.reset.Inv

/-- Every step keeps the invariant, from every state that meets it. -/
def Obligations.StepKeepsTheInvariant : Prop :=
  ∀ s t : State, s.Inv → step s = .next t → t.Inv

/-- Every host operation keeps the invariant: load, reset, the host writes, run() and load_and_run. -/
def Obligations.HostOperationsKeepTheInvariant : Prop :=
  ∀ s : State, s.Inv →
    (∀ op t, applyHostOp op s = .ok t → t.Inv) ∧
    (∀ n t, run n s = .executing t → t.Inv) ∧
    (∀ n r t, run n s = .returned r t → t.Inv) ∧
    (∀ n p t, loadAndRun n p s = .ok (.executing t) → t.Inv) ∧
    (∀ n p r t, loadAndRun n p s = .ok (.returned r t) → t.Inv)

/-- R23, which the spec marks as derived: no step writes Y, and of the host's operations only reset(), which
sets it to 0, and a write of Y do. -/
def Obligations.OnlyTheHostChangesY : Prop :=
  (∀ s t, step s = .next t → t.y = s.y) ∧
  (∀ n s r t, run n s = .returned r t → t.y = s.y) ∧
  (∀ op s t, applyHostOp op s = .ok t → t.y ≠ s.y → (op = .reset ∧ t.y = 0x00) ∨ op = .writeY t.y)

/-- R31, R106: bits 2 to 5 of status go through every step and every call of run() unchanged, are 0 after
new() and reset(), and change otherwise only by a host write of status. That the host may write them is the
spec's decision D5 (log 5). -/
def Obligations.ReservedStatusBitsAreKept : Prop :=
  ∀ k, 2 ≤ k → k ≤ 5 →
    (∀ s t, step s = .next t → t.status.getLsbD k = s.status.getLsbD k) ∧
    (∀ n s r t, run n s = .returned r t → t.status.getLsbD k = s.status.getLsbD k) ∧
    State.new.status.getLsbD k = false ∧ (∀ s, (hostReset s).status.getLsbD k = false) ∧
    (∀ op s t, applyHostOp op s = .ok t → t.status.getLsbD k ≠ s.status.getLsbD k →
      op = .reset ∨ op = .writeStatus t.status)

/-- R27, R29: C and V change only by ADC and SBC. -/
def Obligations.OnlyAdcAndSbcChangeCarryAndOverflow : Prop :=
  ∀ (s t : State) (i : Instr), exec i s = .next t → i.handler ≠ .adc → i.handler ≠ .sbc →
    t.status.getLsbD 0 = s.status.getLsbD 0 ∧ t.status.getLsbD 6 = s.status.getLsbD 6

/-- R21, R22, R26, R150: which instruction may change what. A step that changes a byte of memory ran an STA
whose address is that byte's; one that changes A ran LDA, ADC or SBC; one that changes X ran TAX or INX; one
that changes status ran one of those five; one that ends run() ran BRK. -/
def Obligations.StateChangesOnlyByTheInstructionsNamed : Prop :=
  ∀ s t : State, s.runStatus = .running → step s = .next t →
    ∃ i : Instr, BytesAt s.pc (encode i) s ∧
      (∀ k, t.memRead k ≠ s.memRead k → i.handler = .sta ∧ storeAddress i s = some k) ∧
      (t.a ≠ s.a → i.handler = .lda ∨ i.handler = .adc ∨ i.handler = .sbc) ∧
      (t.x ≠ s.x → i.handler = .tax ∨ i.handler = .inx) ∧
      (t.status ≠ s.status → i.handler ≠ .sta ∧ i.handler ≠ .brk) ∧
      (t.runStatus ≠ .running → i.handler = .brk ∧ t.runStatus = .halted)

/-- R28 to R31, R104: of status, only C is ever read. Two states alike in all but status, with the same C, step
alike: equal registers, PC, memory and run status, and a status bit that comes out different was
different before. -/
def Obligations.OnlyTheCarryBitOfStatusIsRead : Prop :=
  ∀ s t s' : State, SameButStatus s t → t.status.getLsbD 0 = s.status.getLsbD 0 → step s = .next s' →
    ∃ t', step t = .next t' ∧ SameButStatus s' t' ∧ t'.status.getLsbD 0 = s'.status.getLsbD 0 ∧
      ∀ k, t'.status.getLsbD k ≠ s'.status.getLsbD k → t.status.getLsbD k ≠ s.status.getLsbD k

/-- R34: the run status does not change how any instruction computes, nor what a later run() does (the spec's
decision D6, log 6). -/
def Obligations.RunStatusDoesNotChangeHowInstructionsCompute : Prop :=
  (∀ (i : Instr) (s t : State) (r : RunStatus), exec i s = .next t →
    exec i { s with runStatus := r } = .next { t with runStatus := if i = .brk then .halted else r }) ∧
  (∀ (n : Nat) (s : State) (r : RunStatus), run n { s with runStatus := r } = run n s)

/-! ### new, reset, load, load_and_run -/

/-- R35: every component of `new()` is zero. -/
def Obligations.NewStateIsZeroed : Prop :=
  State.new.a = 0x00 ∧ State.new.x = 0x00 ∧ State.new.y = 0x00 ∧ State.new.status = 0x00 ∧
  State.new.pc = 0x0000 ∧ (∀ k, State.new.memRead k = 0x00) ∧ State.new.runStatus = .idle

/-- R36: what reset() leaves; after load and reset PC is 0x8000; on a fresh state it is 0x0000, and that is
`State.reset`. That memory is unchanged is the spec's decision D18 (log 11), and that `State.reset` is a
fresh state after reset() the model's (log 1). -/
def Obligations.ResetLeavesZeroRegistersAndTheVector : Prop :=
  (∀ s : State, (hostReset s).a = 0x00 ∧ (hostReset s).x = 0x00 ∧ (hostReset s).y = 0x00 ∧
    (hostReset s).status = 0x00 ∧ (hostReset s).pc.toNat = wordOf (byteAt s 0xFFFD) (byteAt s 0xFFFC) ∧
    SameMemory s (hostReset s) ∧ (hostReset s).runStatus = .idle) ∧
  (∀ p s t, load p s = .ok t → (hostReset t).pc = 0x8000) ∧
  (hostReset State.new).pc = 0x0000 ∧ State.reset = hostReset State.new

/-- R232: load copies the program to 0x8000 and then writes the reset vector, which wins where they meet, and
changes no other byte, no register and not PC. The order of the two is the spec's decision D2 (log 10). -/
def Obligations.LoadWritesTheProgramAndTheVector : Prop :=
  ∀ (p : List Byte) (s : State), p.length ≤ 0x8000 → ∃ t, load p s = .ok t ∧
    t.memRead 0xFFFC = 0x00 ∧ t.memRead 0xFFFD = 0x80 ∧
    (∀ (k : Nat) (h : k < p.length), k ≠ 0x7FFC → k ≠ 0x7FFD → byteAt t (0x8000 + k) = p[k]) ∧
    (∀ addr : Addr, addr ≠ 0xFFFC → addr ≠ 0xFFFD →
      (addr.toNat < 0x8000 ∨ 0x8000 + p.length ≤ addr.toNat) → t.memRead addr = s.memRead addr) ∧
    t.a = s.a ∧ t.x = s.x ∧ t.y = s.y ∧ t.status = s.status ∧ t.pc = s.pc ∧ t.runStatus = s.runStatus

/-- R233: a program longer than 0x8000 bytes is refused with its length (and, load being a function of the
state, with no change of it). Between calls of run() the host's operation says the same. The spec's decision
D2 (log 10). -/
def Obligations.LoadRefusesAProgramTooLarge : Prop :=
  ∀ (p : List Byte) (s : State), 0x8000 < p.length →
    load p s = .error (.programTooLarge p.length) ∧
    (s.runStatus ≠ .running → applyHostOp (.load p) s = .error (.programTooLarge p.length))

/-- R236: between calls of run(), load_and_run is load, reset and run; it stops at a refused load; and
register values set before it are lost. The stop is the spec's decision D2 (log 10). While run() executes it
is refused, which is the model's choice (log 16). -/
def Obligations.LoadAndRunIsLoadThenResetThenRun : Prop :=
  ∀ (n : Nat) (p : List Byte) (s : State),
    (s.runStatus ≠ .running →
      (∀ t, load p s = .ok t → loadAndRun n p s = .ok (run n (hostReset t))) ∧
      (∀ e, load p s = .error e → loadAndRun n p s = .error e) ∧
      (∀ t : State, t.runStatus ≠ .running → t.mem = s.mem → loadAndRun n p t = loadAndRun n p s)) ∧
    (s.runStatus = .running → loadAndRun n p s = .error .engineRunning)

/-- R237: between calls of run() each host write sets what it names and nothing else; a word goes low byte first,
R44, and that its high byte at 0xFFFF wraps to 0x0000 is the spec's decision D1 (log 2). While run() executes
a write is refused, which is the model's choice (log 16). -/
def Obligations.HostWritesSetWhatTheyName : Prop :=
  ∀ (s : State) (v : Byte) (w addr : Addr),
    (s.runStatus ≠ .running →
      applyHostOp (.writeA v) s = .ok { s with a := v } ∧ applyHostOp (.writeX v) s = .ok { s with x := v } ∧
      applyHostOp (.writeY v) s = .ok { s with y := v } ∧
      applyHostOp (.writeStatus v) s = .ok { s with status := v } ∧
      applyHostOp (.writePc w) s = .ok { s with pc := w } ∧
      (∃ t, applyHostOp (.memWrite addr v) s = .ok t ∧ t.memRead addr = v ∧
        (∀ k, k ≠ addr → t.memRead k = s.memRead k) ∧ { t with mem := s.mem } = s) ∧
      applyHostOp (.memWrite16 addr w) s = .ok ((s.memWrite addr (lo8 w)).memWrite (addr + 1) (hi8 w))) ∧
    (s.runStatus = .running → ∀ op, applyHostOp op s = .error .engineRunning)

/-- R237, R57: between calls of run() the host reads A, X, Y, status, PC, and memory at widths 1 and 2, the
latter little-endian. The wrap at 0xFFFF is the spec's decision D1 (log 2). -/
def Obligations.HostReadsGiveWhatTheStateHolds : Prop :=
  ∀ (s : State) (addr : Addr), s.runStatus ≠ .running →
    hostInspect .a s = .ok (.byte s.a) ∧ hostInspect .x s = .ok (.byte s.x) ∧
    hostInspect .y s = .ok (.byte s.y) ∧ hostInspect .status s = .ok (.byte s.status) ∧
    hostInspect .pc s = .ok (.word s.pc) ∧
    hostInspect (.memRead addr) s = .ok (.byte (byteAt s addr.toNat)) ∧
    ∃ w : Addr, hostInspect (.memRead16 addr) s = .ok (.word w) ∧
      w.toNat = wordOf (byteAt s ((addr.toNat + 1) % 65536)) (byteAt s addr.toNat)

/-- R230, R57, by the spec's decision D16: the host acts only while run() is not executing, and then its run()
is a run from the state as it stands. That anything asked for while run() executes gets the error
engineRunning is the model's choice (log 16). -/
def Obligations.HostActsOnlyBetweenCallsOfRun : Prop :=
  ∀ (n : Nat) (s : State),
    (s.runStatus ≠ .running → hostRun n s = .ok (run n s)) ∧
    (s.runStatus = .running → hostRun n s = .error .engineRunning ∧
      (∀ p, loadAndRun n p s = .error .engineRunning) ∧
      (∀ op, applyHostOp op s = .error .engineRunning) ∧
      ∀ q, hostInspect q s = .error .engineRunning)

/-- R57, by the spec's decision D16: a host write of A's value to an address, and an STA to that address before
the run (PC put back), leave the same memory, and the next run() does the same after either. -/
def Obligations.HostWriteIsSeenLikeAnEarlierSta : Prop :=
  ∀ (i : Instr) (ea : Addr) (s : State), s.runStatus ≠ .running → storeAddress i s = some ea →
    ∃ t u, applyHostOp (.memWrite ea s.a) s = .ok t ∧ exec i s = .next u ∧ SameMemory u t ∧
      ∀ n, hostRun n t = .ok (run n { u with pc := s.pc })

/-! ### run() -/

/-- R128, R190, R201, R207: what a run that has returned left. Ok(Halted) means that the last instruction was a
BRK, whose byte stands just before PC; Err(info) names the byte at PC, which is out of scope; there is no other
result, and nothing is returned while the run status is neither. That PC is at that byte, so that the info
names it, is the spec's decision D3 (log 3). -/
def Obligations.RunReturnsAtBrkOrAtAnUnimplementedOpcode : Prop :=
  ∀ (n : Nat) (s : State) (r : RunResult) (t : State), run n s = .returned r t →
    (r = .okHalted ∧ t.runStatus = .halted ∧ t.memRead (t.pc - 1) = 0x00) ∨
    (∃ f, r = .err f ∧ t.runStatus = .faulted f ∧ f = .unimplementedOpcode (t.memRead t.pc) t.pc ∧
      t.memRead t.pc ∉ opcodesInScope)

/-- R131, R129: a call of run() has at most one result, whichever bound it is watched with, and one that
returns does not run forever. -/
def Obligations.RunHasAtMostOneResult : Prop :=
  (∀ (s : State) (r r' : RunResult) (t t' : State), RunReturns s r t → RunReturns s r' t' → r = r' ∧ t = t') ∧
  (∀ s : State, RunsForever s ↔ ¬ ∃ r t, RunReturns s r t)

/-- R208, by the spec's decision D6 (log 6): run() after a fault, with the state as the fault left it (PC at the
faulting byte, its decision D3, log 3), faults again with the same info. -/
def Obligations.RunAfterAFaultFaultsAgain : Prop :=
  ∀ (n : Nat) (s t : State) (f : Fault), run n s = .returned (.err f) t →
    ∀ m, run (m + 1) t = .returned (.err f) t

/-- R129, with the spec's decision D19 (log 15): run() need not terminate. With memory that holds only INX bytes
it never returns: PC goes around the address space and X counts; and there is such a state that meets the
invariant. -/
def Obligations.SomeRunNeverReturns : Prop :=
  (∀ s : State, (∀ k, s.memRead k = 0xE8) → ∀ n, ∃ t, run n s = .executing t ∧
    t.pc = s.pc + BitVec.ofNat 16 n ∧ t.x = s.x + BitVec.ofNat 8 n) ∧
  (∃ s : State, s.Inv ∧ (∀ k, s.memRead k = 0xE8) ∧ RunsForever s)

/-- The machine the host runs is one call of run() (R128 and the model's log 6): from a state whose run has not
ended, `core` takes the steps of run(), stays in the state that Ok(Halted) left, and stops with the fault
that Err(info) names. -/
def Obligations.CoreRunIsOneCallOfRun : Prop :=
  ∀ (n : Nat) (s : State), s.runStatus = .idle ∨ s.runStatus = .running →
    (∀ t, run (n + 1) s = .executing t → Host.Core.run core (n + 1) s = .next t) ∧
    (∀ t, run n s = .returned .okHalted t → ∀ k, n ≤ k → Host.Core.run core k s = .next t) ∧
    (∀ f t, run n s = .returned (.err f) t → ∀ k, n ≤ k → Host.Core.run core k s = .fault f)
end

