-- ==== Sys2Proof/Laws/Decode.lean ====
section
/-! SUPPORT. The byte-order helpers and the rows of the dispatch table. -/

namespace Sys2Proof

/-! ### Byte order (00_scope.md R10) -/

@[simp] theorem toNat_zext16 (b : Byte) : (zext16 b).toNat = b.toNat := by
  have := b.isLt
  simp [zext16]
  omega

/-- `hi : lo` is `hi*256 + lo`. -/
theorem toNat_joinBytes (hi lo : Byte) : (joinBytes hi lo).toNat = hi.toNat * 256 + lo.toNat := by
  rw [joinBytes, BitVec.toNat_append, Nat.shiftLeft_eq]
  have h2 := lo.isLt
  rw [Nat.mul_comm, ← Nat.two_pow_add_eq_or_of_lt h2]

theorem joinBytes_hi8_lo8 (w : Addr) : joinBytes (hi8 w) (lo8 w) = w := by
  apply BitVec.eq_of_toNat_eq
  rw [toNat_joinBytes]
  have := w.isLt
  simp [hi8, lo8, Nat.shiftRight_eq_div_pow]
  omega

theorem lo8_joinBytes (hi lo : Byte) : lo8 (joinBytes hi lo) = lo := by
  apply BitVec.eq_of_toNat_eq
  have h1 := hi.isLt
  have h2 := lo.isLt
  simp [lo8, toNat_joinBytes]
  omega

theorem hi8_joinBytes (hi lo : Byte) : hi8 (joinBytes hi lo) = hi := by
  apply BitVec.eq_of_toNat_eq
  have h1 := hi.isLt
  have h2 := lo.isLt
  simp [hi8, toNat_joinBytes, Nat.shiftRight_eq_div_pow]
  omega

/-! ### The dispatch table -/

/-- How many operand bytes a former takes. -/
def Former.width : Former → Nat
  | .implied _ => 0
  | .byte _ => 1
  | .word _ => 2

/-- A row the table gives stands in it, under the opcode asked for. -/
theorem dispatch_some {op : Byte} {row : Row} (h : dispatch op = some row) :
    row ∈ dispatchTable ∧ row.opcode = op :=
  ⟨List.mem_of_find?_eq_some h, by simpa using List.find?_some h⟩

/-- No two rows share an opcode byte (30_encoding.md R60). -/
theorem dispatchTable_opcodes_nodup : (dispatchTable.map Row.opcode).Nodup := by decide

/-- Every row's pair is in scope (00_scope.md R2). -/
theorem dispatchTable_entries_wellFormed : ∀ row ∈ dispatchTable, row.entry.wellFormed = true := by
  simp [dispatchTable, Entry.wellFormed]

/-- Every row's former takes the bytes of its mode's width (40_addressing.md R91). -/
theorem dispatchTable_widths : ∀ row ∈ dispatchTable, row.former.width = row.entry.mode.width := by
  simp [dispatchTable, Former.width, Mode.width]

/-- Every instruction is well formed: the opcode map is closed under the constructors. -/
theorem instr_wellFormed (i : Instr) : i.wellFormed = true := by
  cases i <;> rfl

end Sys2Proof
end

