-- ==== Sys2Proof/Laws/State.lean ====
section
/-! SUPPORT. The projections of every update of `State`: what an update writes reads back, every other
field is unchanged. -/

namespace Sys2Proof.Machine

variable (s : State)

/-! ### `setA` -/

@[simp] theorem State.setA_a (v : Byte) : (s.setA v).a = v := rfl
@[simp] theorem State.setA_x (v : Byte) : (s.setA v).x = s.x := rfl
@[simp] theorem State.setA_y (v : Byte) : (s.setA v).y = s.y := rfl
@[simp] theorem State.setA_status (v : Byte) : (s.setA v).status = s.status := rfl
@[simp] theorem State.setA_pc (v : Byte) : (s.setA v).pc = s.pc := rfl
@[simp] theorem State.setA_mem (v : Byte) : (s.setA v).mem = s.mem := rfl
@[simp] theorem State.setA_runStatus (v : Byte) : (s.setA v).runStatus = s.runStatus := rfl

/-! ### `setX` -/

@[simp] theorem State.setX_a (v : Byte) : (s.setX v).a = s.a := rfl
@[simp] theorem State.setX_x (v : Byte) : (s.setX v).x = v := rfl
@[simp] theorem State.setX_y (v : Byte) : (s.setX v).y = s.y := rfl
@[simp] theorem State.setX_status (v : Byte) : (s.setX v).status = s.status := rfl
@[simp] theorem State.setX_pc (v : Byte) : (s.setX v).pc = s.pc := rfl
@[simp] theorem State.setX_mem (v : Byte) : (s.setX v).mem = s.mem := rfl
@[simp] theorem State.setX_runStatus (v : Byte) : (s.setX v).runStatus = s.runStatus := rfl

/-! ### `setY` -/

@[simp] theorem State.setY_a (v : Byte) : (s.setY v).a = s.a := rfl
@[simp] theorem State.setY_x (v : Byte) : (s.setY v).x = s.x := rfl
@[simp] theorem State.setY_y (v : Byte) : (s.setY v).y = v := rfl
@[simp] theorem State.setY_status (v : Byte) : (s.setY v).status = s.status := rfl
@[simp] theorem State.setY_pc (v : Byte) : (s.setY v).pc = s.pc := rfl
@[simp] theorem State.setY_mem (v : Byte) : (s.setY v).mem = s.mem := rfl
@[simp] theorem State.setY_runStatus (v : Byte) : (s.setY v).runStatus = s.runStatus := rfl

/-! ### `setStatus` -/

@[simp] theorem State.setStatus_a (v : Byte) : (s.setStatus v).a = s.a := rfl
@[simp] theorem State.setStatus_x (v : Byte) : (s.setStatus v).x = s.x := rfl
@[simp] theorem State.setStatus_y (v : Byte) : (s.setStatus v).y = s.y := rfl
@[simp] theorem State.setStatus_status (v : Byte) : (s.setStatus v).status = v := rfl
@[simp] theorem State.setStatus_pc (v : Byte) : (s.setStatus v).pc = s.pc := rfl
@[simp] theorem State.setStatus_mem (v : Byte) : (s.setStatus v).mem = s.mem := rfl
@[simp] theorem State.setStatus_runStatus (v : Byte) : (s.setStatus v).runStatus = s.runStatus := rfl

/-! ### `setPc` -/

@[simp] theorem State.setPc_a (v : Addr) : (s.setPc v).a = s.a := rfl
@[simp] theorem State.setPc_x (v : Addr) : (s.setPc v).x = s.x := rfl
@[simp] theorem State.setPc_y (v : Addr) : (s.setPc v).y = s.y := rfl
@[simp] theorem State.setPc_status (v : Addr) : (s.setPc v).status = s.status := rfl
@[simp] theorem State.setPc_pc (v : Addr) : (s.setPc v).pc = v := rfl
@[simp] theorem State.setPc_mem (v : Addr) : (s.setPc v).mem = s.mem := rfl
@[simp] theorem State.setPc_runStatus (v : Addr) : (s.setPc v).runStatus = s.runStatus := rfl

/-! ### `setMem` -/

@[simp] theorem State.setMem_a (v : List Host.Cell) : (s.setMem v).a = s.a := rfl
@[simp] theorem State.setMem_x (v : List Host.Cell) : (s.setMem v).x = s.x := rfl
@[simp] theorem State.setMem_y (v : List Host.Cell) : (s.setMem v).y = s.y := rfl
@[simp] theorem State.setMem_status (v : List Host.Cell) : (s.setMem v).status = s.status := rfl
@[simp] theorem State.setMem_pc (v : List Host.Cell) : (s.setMem v).pc = s.pc := rfl
@[simp] theorem State.setMem_mem (v : List Host.Cell) : (s.setMem v).mem = v := rfl
@[simp] theorem State.setMem_runStatus (v : List Host.Cell) : (s.setMem v).runStatus = s.runStatus := rfl

/-! ### `setRunStatus` -/

@[simp] theorem State.setRunStatus_a (v : RunStatus) : (s.setRunStatus v).a = s.a := rfl
@[simp] theorem State.setRunStatus_x (v : RunStatus) : (s.setRunStatus v).x = s.x := rfl
@[simp] theorem State.setRunStatus_y (v : RunStatus) : (s.setRunStatus v).y = s.y := rfl
@[simp] theorem State.setRunStatus_status (v : RunStatus) : (s.setRunStatus v).status = s.status := rfl
@[simp] theorem State.setRunStatus_pc (v : RunStatus) : (s.setRunStatus v).pc = s.pc := rfl
@[simp] theorem State.setRunStatus_mem (v : RunStatus) : (s.setRunStatus v).mem = s.mem := rfl
@[simp] theorem State.setRunStatus_runStatus (v : RunStatus) : (s.setRunStatus v).runStatus = v := rfl

/-! ### `memWrite` -/

@[simp] theorem State.memWrite_a (b : Addr) (v : Byte) : (s.memWrite b v).a = s.a := rfl
@[simp] theorem State.memWrite_x (b : Addr) (v : Byte) : (s.memWrite b v).x = s.x := rfl
@[simp] theorem State.memWrite_y (b : Addr) (v : Byte) : (s.memWrite b v).y = s.y := rfl
@[simp] theorem State.memWrite_status (b : Addr) (v : Byte) : (s.memWrite b v).status = s.status := rfl
@[simp] theorem State.memWrite_pc (b : Addr) (v : Byte) : (s.memWrite b v).pc = s.pc := rfl
@[simp] theorem State.memWrite_mem (b : Addr) (v : Byte) : (s.memWrite b v).mem = Memory.write s.mem b.toNat v := rfl
@[simp] theorem State.memWrite_runStatus (b : Addr) (v : Byte) : (s.memWrite b v).runStatus = s.runStatus := rfl

/-! ### `setFlag` -/

@[simp] theorem State.setFlag_a (f : Flag) (b : Bool) : (s.setFlag f b).a = s.a := rfl
@[simp] theorem State.setFlag_x (f : Flag) (b : Bool) : (s.setFlag f b).x = s.x := rfl
@[simp] theorem State.setFlag_y (f : Flag) (b : Bool) : (s.setFlag f b).y = s.y := rfl
@[simp] theorem State.setFlag_status (f : Flag) (b : Bool) : (s.setFlag f b).status = Machine.setFlag f b s.status := rfl
@[simp] theorem State.setFlag_pc (f : Flag) (b : Bool) : (s.setFlag f b).pc = s.pc := rfl
@[simp] theorem State.setFlag_mem (f : Flag) (b : Bool) : (s.setFlag f b).mem = s.mem := rfl
@[simp] theorem State.setFlag_runStatus (f : Flag) (b : Bool) : (s.setFlag f b).runStatus = s.runStatus := rfl

/-! ### `applyZeroNegative` -/

@[simp] theorem State.applyZeroNegative_a (v : Byte) : (s.applyZeroNegative v).a = s.a := rfl
@[simp] theorem State.applyZeroNegative_x (v : Byte) : (s.applyZeroNegative v).x = s.x := rfl
@[simp] theorem State.applyZeroNegative_y (v : Byte) : (s.applyZeroNegative v).y = s.y := rfl
@[simp] theorem State.applyZeroNegative_status (v : Byte) : (s.applyZeroNegative v).status = zeroNegative v s.status := rfl
@[simp] theorem State.applyZeroNegative_pc (v : Byte) : (s.applyZeroNegative v).pc = s.pc := rfl
@[simp] theorem State.applyZeroNegative_mem (v : Byte) : (s.applyZeroNegative v).mem = s.mem := rfl
@[simp] theorem State.applyZeroNegative_runStatus (v : Byte) : (s.applyZeroNegative v).runStatus = s.runStatus := rfl

/-! ### `setAluResult` -/

@[simp] theorem State.setAluResult_a (r : AluResult) : (s.setAluResult r).a = r.result := rfl
@[simp] theorem State.setAluResult_x (r : AluResult) : (s.setAluResult r).x = s.x := rfl
@[simp] theorem State.setAluResult_y (r : AluResult) : (s.setAluResult r).y = s.y := rfl
@[simp] theorem State.setAluResult_status (r : AluResult) : (s.setAluResult r).status = zeroNegative r.result (Machine.setFlag .v r.overflow (Machine.setFlag .c r.carry s.status)) := rfl
@[simp] theorem State.setAluResult_pc (r : AluResult) : (s.setAluResult r).pc = s.pc := rfl
@[simp] theorem State.setAluResult_mem (r : AluResult) : (s.setAluResult r).mem = s.mem := rfl
@[simp] theorem State.setAluResult_runStatus (r : AluResult) : (s.setAluResult r).runStatus = s.runStatus := rfl

/-! ### `advancePc` -/

@[simp] theorem State.advancePc_a (m : Mode) : (s.advancePc m).a = s.a := rfl
@[simp] theorem State.advancePc_x (m : Mode) : (s.advancePc m).x = s.x := rfl
@[simp] theorem State.advancePc_y (m : Mode) : (s.advancePc m).y = s.y := rfl
@[simp] theorem State.advancePc_status (m : Mode) : (s.advancePc m).status = s.status := rfl
@[simp] theorem State.advancePc_pc (m : Mode) : (s.advancePc m).pc = s.pc + 1 + BitVec.ofNat 16 m.width := rfl
@[simp] theorem State.advancePc_mem (m : Mode) : (s.advancePc m).mem = s.mem := rfl
@[simp] theorem State.advancePc_runStatus (m : Mode) : (s.advancePc m).runStatus = s.runStatus := rfl

/-! ### `halt` -/

@[simp] theorem State.halt_a : s.halt.a = s.a := rfl
@[simp] theorem State.halt_x : s.halt.x = s.x := rfl
@[simp] theorem State.halt_y : s.halt.y = s.y := rfl
@[simp] theorem State.halt_status : s.halt.status = s.status := rfl
@[simp] theorem State.halt_pc : s.halt.pc = s.pc := rfl
@[simp] theorem State.halt_mem : s.halt.mem = s.mem := rfl
@[simp] theorem State.halt_runStatus : s.halt.runStatus = .halted := rfl

/-! ### `stopWithFault` -/

@[simp] theorem State.stopWithFault_a (f : Fault) : (s.stopWithFault f).a = s.a := rfl
@[simp] theorem State.stopWithFault_x (f : Fault) : (s.stopWithFault f).x = s.x := rfl
@[simp] theorem State.stopWithFault_y (f : Fault) : (s.stopWithFault f).y = s.y := rfl
@[simp] theorem State.stopWithFault_status (f : Fault) : (s.stopWithFault f).status = s.status := rfl
@[simp] theorem State.stopWithFault_pc (f : Fault) : (s.stopWithFault f).pc = s.pc := rfl
@[simp] theorem State.stopWithFault_mem (f : Fault) : (s.stopWithFault f).mem = s.mem := rfl
@[simp] theorem State.stopWithFault_runStatus (f : Fault) : (s.stopWithFault f).runStatus = .faulted f := rfl

/-! ### `beginRun` -/

@[simp] theorem State.beginRun_a : s.beginRun.a = s.a := rfl
@[simp] theorem State.beginRun_x : s.beginRun.x = s.x := rfl
@[simp] theorem State.beginRun_y : s.beginRun.y = s.y := rfl
@[simp] theorem State.beginRun_status : s.beginRun.status = s.status := rfl
@[simp] theorem State.beginRun_pc : s.beginRun.pc = s.pc := rfl
@[simp] theorem State.beginRun_mem : s.beginRun.mem = s.mem := rfl
@[simp] theorem State.beginRun_runStatus : s.beginRun.runStatus = .running := rfl

/-! ### The memory reads of a state depend on its memory alone -/


@[simp] theorem State.setA_memRead (v : Byte) (k : Addr) : (s.setA v).memRead k = s.memRead k := rfl
@[simp] theorem State.setX_memRead (v : Byte) (k : Addr) : (s.setX v).memRead k = s.memRead k := rfl
@[simp] theorem State.setY_memRead (v : Byte) (k : Addr) : (s.setY v).memRead k = s.memRead k := rfl
@[simp] theorem State.setStatus_memRead (v : Byte) (k : Addr) : (s.setStatus v).memRead k = s.memRead k := rfl
@[simp] theorem State.setPc_memRead (v : Addr) (k : Addr) : (s.setPc v).memRead k = s.memRead k := rfl
@[simp] theorem State.setRunStatus_memRead (v : RunStatus) (k : Addr) : (s.setRunStatus v).memRead k = s.memRead k := rfl
@[simp] theorem State.setFlag_memRead (f : Flag) (b : Bool) (k : Addr) : (s.setFlag f b).memRead k = s.memRead k := rfl
@[simp] theorem State.applyZeroNegative_memRead (v : Byte) (k : Addr) : (s.applyZeroNegative v).memRead k = s.memRead k := rfl
@[simp] theorem State.setAluResult_memRead (r : AluResult) (k : Addr) : (s.setAluResult r).memRead k = s.memRead k := rfl
@[simp] theorem State.advancePc_memRead (m : Mode) (k : Addr) : (s.advancePc m).memRead k = s.memRead k := rfl
@[simp] theorem State.halt_memRead (k : Addr) : s.halt.memRead k = s.memRead k := rfl
@[simp] theorem State.stopWithFault_memRead (f : Fault) (k : Addr) : (s.stopWithFault f).memRead k = s.memRead k := rfl
@[simp] theorem State.beginRun_memRead (k : Addr) : s.beginRun.memRead k = s.memRead k := rfl

/-- Two states are equal when all their fields are. -/
theorem State.ext_fields {s t : State} (ha : s.a = t.a) (hx : s.x = t.x) (hy : s.y = t.y)
    (hst : s.status = t.status) (hpc : s.pc = t.pc) (hm : s.mem = t.mem)
    (hr : s.runStatus = t.runStatus) : s = t := by
  cases s; cases t; simp_all

/-- `State.reset` is the state `reset()` leaves on a fresh state (R35, R36; log 1). -/
theorem reset_eq_hostReset_new : State.reset = hostReset State.new := by decide

end Sys2Proof.Machine
end

