-- ==== Sys2Proof/Laws/Flags.lean ====
section
/-! SUPPORT. The bits of the status byte through the flag updates (10_state.md R26, 41_flag_updater.md). -/

namespace Sys2Proof.Machine

/-- One bit of a status byte after a flag is set: the flag's own bit is the value, every other is kept. -/
theorem getLsbD_setFlag (f : Flag) (b : Bool) (st : Byte) (k : Nat) :
    (setFlag f b st).getLsbD k = if k = f.bit then b else st.getLsbD k := by
  by_cases h8 : k < 8
  · rcases f with _ | _ | _ | _ <;> rcases b with _ | _ <;>
      interval_cases k <;> simp [setFlag, Flag.bit]
  · have hk : k ≠ f.bit := by cases f <;> simp [Flag.bit] <;> omega
    rw [if_neg hk, BitVec.getLsbD_of_ge _ _ (by omega), BitVec.getLsbD_of_ge _ _ (by omega)]

/-- Reading one flag after setting another. -/
@[simp] theorem getFlag_setFlag (f g : Flag) (b : Bool) (st : Byte) :
    getFlag g (setFlag f b st) = if g = f then b else getFlag g st := by
  rw [getFlag, getLsbD_setFlag]
  cases f <;> cases g <;> rfl

/-- The bits of status after `apply_zero_negative` (R100). -/
theorem getLsbD_zeroNegative (v st : Byte) (k : Nat) :
    (zeroNegative v st).getLsbD k =
      if k = 7 then v.msb else if k = 1 then v == 0 else st.getLsbD k := by
  simp only [zeroNegative, getLsbD_setFlag, Flag.bit]
  rfl

/-- The bits of status after the flag writes of ADC and SBC (R180, R181). -/
theorem getLsbD_setAluResult (r : AluResult) (s : State) (k : Nat) :
    (s.setAluResult r).status.getLsbD k =
      if k = 7 then r.result.msb else if k = 1 then r.result == 0
      else if k = 6 then r.overflow else if k = 0 then r.carry else s.status.getLsbD k := by
  simp only [State.setAluResult_status, getLsbD_zeroNegative, getLsbD_setFlag, Flag.bit]
  rfl

end Sys2Proof.Machine
end

