-- ==== Sys2Proof/Laws/Memory.lean ====
section
/-! SUPPORT. The memory: a read after a write, the canonical form, and what the writes of a whole list of
bytes change. -/

namespace Sys2Proof.Machine

namespace Memory

/-! ### Reads after erase, insert and write -/

/-- A read after an erase. -/
theorem read_erase (m : List Host.Cell) (a k : Nat) :
    read (erase m a) k = if k = a then Config.memDefault else read m k := by
  induction m with
  | nil => simp [erase, read]
  | cons c m ih =>
    obtain ⟨b, w⟩ := c
    by_cases hb : a = b
    · subst hb
      simp only [erase, if_true, ih, read]
      by_cases hk : k = a <;> simp [hk]
    · simp only [erase, if_neg hb, read, ih]
      by_cases hk : k = b
      · subst hk; simp [Ne.symm hb]
      · simp [hk]

/-- An insertion is seen at its address when no entry stands there, and nowhere else. -/
theorem read_insert (m : List Host.Cell) (a k : Nat) (v : Byte) (h : ∀ c ∈ m, c.1 ≠ a) :
    read (insert m a v) k = if k = a then v else read m k := by
  induction m with
  | nil => simp [insert, read]
  | cons c m ih =>
    obtain ⟨b, w⟩ := c
    have hb : b ≠ a := h (b, w) (by simp)
    have ih := ih (fun c hc => h c (by simp [hc]))
    simp only [insert]
    split
    · simp [read]
    · simp only [read, ih]
      by_cases hk : k = b
      · subst hk; simp [hb]
      · simp [hk]

/-- An erased address is listed no more. -/
theorem ne_of_mem_erase (m : List Host.Cell) (a : Nat) : ∀ c ∈ erase m a, c.1 ≠ a := by
  induction m with
  | nil => simp [erase]
  | cons c m ih =>
    obtain ⟨b, w⟩ := c
    simp only [erase]
    split
    · exact ih
    · rename_i hb
      simp only [List.mem_cons, forall_eq_or_imp]
      exact ⟨fun h => hb h.symm, ih⟩

/-- A read after a write, for every memory, canonical or not (R41, R42). -/
theorem read_write (m : List Host.Cell) (a k : Nat) (v : Byte) :
    read (write m a v) k = if k = a then v else read m k := by
  unfold write
  split
  · rename_i hv; rw [read_erase, hv]
  · rw [read_insert _ _ _ _ (ne_of_mem_erase m a), read_erase]
    split <;> rfl

/-! ### The canonical form -/

theorem wfFrom_mono {m : List Host.Cell} {lo lo' : Nat} (h : wfFrom lo m = true) (hle : lo' ≤ lo) :
    wfFrom lo' m = true := by
  cases m with
  | nil => rfl
  | cons c m =>
    obtain ⟨b, w⟩ := c
    simp [wfFrom] at h ⊢
    exact ⟨⟨⟨by omega, h.1.1.2⟩, h.1.2⟩, h.2⟩

theorem wfFrom_erase {m : List Host.Cell} {lo : Nat} (a : Nat) (h : wfFrom lo m = true) :
    wfFrom lo (erase m a) = true := by
  induction m generalizing lo with
  | nil => rfl
  | cons c m ih =>
    obtain ⟨b, w⟩ := c
    simp [wfFrom] at h
    simp only [erase]
    split
    · exact wfFrom_mono (ih h.2) (by omega)
    · simp [wfFrom, h.1, ih h.2]

theorem wfFrom_insert {m : List Host.Cell} {lo a : Nat} {v : Byte} (h : wfFrom lo m = true)
    (hlo : lo ≤ a) (ha : a < Config.memSize) (hv : v ≠ Config.memDefault) (hne : ∀ c ∈ m, c.1 ≠ a) :
    wfFrom lo (insert m a v) = true := by
  induction m generalizing lo with
  | nil => simp [insert, wfFrom, hlo, ha, hv]
  | cons c m ih =>
    obtain ⟨b, w⟩ := c
    have hb : b ≠ a := hne (b, w) (by simp)
    simp [wfFrom] at h
    simp only [insert]
    split
    · simp [wfFrom, hlo, ha, hv, h]; omega
    · have := ih h.2 (by omega) (fun c hc => hne c (by simp [hc]))
      simp [wfFrom, h.1, this]

/-- A write keeps the canonical form. -/
theorem wf_write {m : List Host.Cell} {a : Nat} {v : Byte} (h : wf m = true) (ha : a < Config.memSize) :
    wf (write m a v) = true := by
  unfold write wf
  split
  · exact wfFrom_erase a h
  · exact wfFrom_insert (wfFrom_erase a h) (by omega) ha ‹_› (ne_of_mem_erase m a)

/-- A canonical memory lists nothing below its bound. -/
theorem read_eq_default_of_lt {m : List Host.Cell} {lo k : Nat} (h : wfFrom lo m = true) (hk : k < lo) :
    read m k = Config.memDefault := by
  induction m generalizing lo with
  | nil => rfl
  | cons c m ih =>
    obtain ⟨b, w⟩ := c
    simp [wfFrom] at h
    rw [read, if_neg (by omega), ih h.2 (by omega)]

/-- The head entry of a canonical memory holds no default byte. -/
theorem wfFrom_cons {lo b : Nat} {w : Byte} {m : List Host.Cell} :
    wfFrom lo ((b, w) :: m) = true ↔
      lo ≤ b ∧ b < Config.memSize ∧ w ≠ Config.memDefault ∧ wfFrom (b + 1) m = true := by
  simp [wfFrom, and_assoc]

end Memory

/-! ### The memory primitives of a state -/

/-- A byte read after a byte write (R41, R42). -/
theorem State.memRead_memWrite (s : State) (a k : Addr) (v : Byte) :
    (s.memWrite a v).memRead k = if k = a then v else s.memRead k := by
  simp only [State.memRead, State.memWrite_mem, Memory.read_write, BitVec.toNat_inj]

/-- A byte write keeps the canonical form. -/
theorem State.wf_memWrite {s : State} (a : Addr) (v : Byte) (h : Memory.wf s.mem = true) :
    Memory.wf (s.memWrite a v).mem = true :=
  Memory.wf_write h a.isLt

/-- A two-byte write keeps the canonical form. -/
theorem State.wf_memWrite16 {s : State} (a v : Addr) (h : Memory.wf s.mem = true) :
    Memory.wf (s.memWrite16 a v).mem = true :=
  State.wf_memWrite _ _ (State.wf_memWrite _ _ h)

/-- `writeBytes` keeps the canonical form. -/
theorem State.wf_writeBytes {s : State} (a : Addr) (bytes : List Byte) (h : Memory.wf s.mem = true) :
    Memory.wf (s.writeBytes a bytes).mem = true := by
  induction bytes generalizing s a with
  | nil => exact h
  | cons b bytes ih => exact ih (a + 1) (State.wf_memWrite a b h)

/-- `writeBytes` changes memory alone. -/
theorem State.writeBytes_frame (s : State) (a : Addr) (bytes : List Byte) :
    (s.writeBytes a bytes).a = s.a ∧ (s.writeBytes a bytes).x = s.x ∧ (s.writeBytes a bytes).y = s.y ∧
    (s.writeBytes a bytes).status = s.status ∧ (s.writeBytes a bytes).pc = s.pc ∧
    (s.writeBytes a bytes).runStatus = s.runStatus := by
  induction bytes generalizing s a with
  | nil => simp [State.writeBytes]
  | cons b bytes ih => exact ih (s.memWrite a b) (a + 1)

/-- The memory of `State.reset` is canonical. -/
theorem reset_mem_wf : Memory.wf State.reset.mem = true := rfl

end Sys2Proof.Machine
end

