-- ==== Sys2Proof/Laws/Exec.lean ====
section
/-! SUPPORT. What the shared operations, `exec` and `step` can do, each said once: later proofs cite these
and do not unfold the machine. -/

namespace Sys2Proof.Machine

/-! ### The shared operations of the meanings -/

/-- What every LDA leaves (43_load_store.md R140). -/
theorem loadAccumulator_spec (m : Mode) (v : Byte) (s : State) :
    (loadAccumulator m v s).a = v ∧ (loadAccumulator m v s).x = s.x ∧ (loadAccumulator m v s).y = s.y ∧
    (loadAccumulator m v s).status = zeroNegative v s.status ∧
    (loadAccumulator m v s).pc = s.pc + 1 + BitVec.ofNat 16 m.width ∧
    (loadAccumulator m v s).mem = s.mem ∧ (loadAccumulator m v s).runStatus = s.runStatus :=
  ⟨rfl, rfl, rfl, rfl, rfl, rfl, rfl⟩

/-- What every STA leaves (R150). -/
theorem storeAccumulator_spec (m : Mode) (ea : Addr) (s : State) :
    (storeAccumulator m ea s).a = s.a ∧ (storeAccumulator m ea s).x = s.x ∧
    (storeAccumulator m ea s).y = s.y ∧ (storeAccumulator m ea s).status = s.status ∧
    (storeAccumulator m ea s).pc = s.pc + 1 + BitVec.ofNat 16 m.width ∧
    (storeAccumulator m ea s).mem = Memory.write s.mem ea.toNat s.a ∧
    (storeAccumulator m ea s).runStatus = s.runStatus :=
  ⟨rfl, rfl, rfl, rfl, rfl, rfl, rfl⟩

/-- One byte of memory after an STA. -/
theorem storeAccumulator_memRead (m : Mode) (ea k : Addr) (s : State) :
    (storeAccumulator m ea s).memRead k = if k = ea then s.a else s.memRead k := by
  exact State.memRead_memWrite s ea k s.a

/-- What TAX and INX leave (44_register_ops.md R170, R171). -/
theorem writeIndexX_spec (v : Byte) (s : State) :
    (writeIndexX v s).a = s.a ∧ (writeIndexX v s).x = v ∧ (writeIndexX v s).y = s.y ∧
    (writeIndexX v s).status = zeroNegative v s.status ∧
    (writeIndexX v s).pc = s.pc + 1 + BitVec.ofNat 16 0 ∧
    (writeIndexX v s).mem = s.mem ∧ (writeIndexX v s).runStatus = s.runStatus :=
  ⟨rfl, rfl, rfl, rfl, rfl, rfl, rfl⟩

/-! ### `exec` -/

/-- The next state of an instruction, one case for each handler. Every arm of `exec` answers it
(`exec_cases`). -/
inductive Effect (i : Instr) (s : State) : State → Prop where
  | load (h : i.handler = .lda) (hs : storeAddress i s = none) (v : Byte) :
      Effect i s (loadAccumulator i.mode v s)
  | store (h : i.handler = .sta) (ea : Addr) (hs : storeAddress i s = some ea) :
      Effect i s (storeAccumulator i.mode ea s)
  | tax (h : i = .tax) : Effect i s (writeIndexX s.a s)
  | inx (h : i = .inx) : Effect i s (writeIndexX (s.x + 1) s)
  | adc (imm : Byte) (h : i = .adcImm imm) :
      Effect i s ((s.setAluResult (addWithCarry s.a imm (s.flag .c))).advancePc .immediate)
  | sbc (imm : Byte) (h : i = .sbcImm imm) :
      Effect i s ((s.setAluResult (subWithBorrow s.a imm (s.flag .c))).advancePc .immediate)
  | brk (h : i = .brk) : Effect i s (s.advancePc .noneAddressing).halt

/-- Every instruction completes, with the effect of its handler. -/
theorem exec_effect (i : Instr) (s : State) : ∃ t, exec i s = .next t ∧ Effect i s t := by
  cases i
  case brk => exact ⟨_, rfl, .brk rfl⟩
  case tax => exact ⟨_, rfl, .tax rfl⟩
  case inx => exact ⟨_, rfl, .inx rfl⟩
  case adcImm imm => exact ⟨_, rfl, .adc imm rfl⟩
  case sbcImm imm => exact ⟨_, rfl, .sbc imm rfl⟩
  all_goals first
    | exact ⟨_, rfl, .load rfl rfl _⟩
    | exact ⟨_, rfl, .store rfl _ rfl⟩

/-- What `exec` can answer: a next state that is the effect of the instruction's handler. -/
theorem exec_cases {i : Instr} {s t : State} (h : exec i s = .next t) : Effect i s t := by
  obtain ⟨u, hu, he⟩ := exec_effect i s
  rw [hu] at h
  cases h
  exact he

/-- No instruction faults or is refused (60_exceptions.md R203). -/
theorem exec_ne_fault (i : Instr) (s : State) (f : Fault) : exec i s ≠ .fault f := by
  obtain ⟨t, ht, -⟩ := exec_effect i s
  simp [ht]

theorem exec_ne_refused (i : Instr) (s : State) (r : Refusal) : exec i s ≠ .refused r := by
  obtain ⟨t, ht, -⟩ := exec_effect i s
  simp [ht]

/-! ### `step` -/

/-- What `step` can answer with a next state: nothing moves when run() has ended, and otherwise the
instruction at PC is executed. -/
theorem step_cases {s t : State} (h : step s = .next t) :
    (s.engineStopped = true ∧ t = s) ∨
    (s.engineStopped = false ∧ ∃ i, s.fetchInstr = .ok i ∧ exec i s.beginRun = .next t) := by
  unfold step at h
  split at h
  · rename_i hst
    cases h
    exact .inl ⟨hst, rfl⟩
  · rename_i hst
    split at h
    · rename_i i hi
      exact .inr ⟨by simpa using hst, i, hi, h⟩
    · cases h

/-- A step faults only at a fetch that gives no instruction. -/
theorem step_fault {s : State} {f : Fault} (h : step s = .fault f) :
    s.engineStopped = false ∧ s.fetchInstr = .error f := by
  unfold step at h
  split at h
  · cases h
  · rename_i hst
    split at h
    · exact absurd h (exec_ne_fault _ _ _)
    · rename_i g hg
      cases h
      exact ⟨by simpa using hst, hg⟩

/-- No step is refused. -/
theorem step_ne_refused (s : State) (r : Refusal) : step s ≠ .refused r := by
  intro h
  unfold step at h
  split at h
  · cases h
  · split at h
    · exact exec_ne_refused _ _ _ h
    · cases h

/-- The instruction at PC, when the fetched bytes decode. -/
theorem fetchInstr_of_decode {s : State} {i : Instr} {rest : List Byte}
    (h : decode s.fetchBytes = .ok (i, rest)) : s.fetchInstr = .ok i := by
  simp [State.fetchInstr, h]

/-- A fetch that gives an instruction decoded it. -/
theorem fetchInstr_ok {s : State} {i : Instr} (h : s.fetchInstr = .ok i) :
    ∃ rest, decode s.fetchBytes = .ok (i, rest) := by
  unfold State.fetchInstr at h
  split at h
  · rename_i j rest hd
    cases h
    exact ⟨rest, hd⟩
  · cases h

/-- The bytes fetched depend on memory and PC alone. -/
theorem fetchInstr_congr {s t : State} (hm : s.mem = t.mem) (hpc : s.pc = t.pc) :
    s.fetchInstr = t.fetchInstr := by
  simp [State.fetchInstr, State.fetchBytes, State.memRead, hm, hpc]

end Sys2Proof.Machine
end

