-- ==== Sys2Proof/Laws/PerInstr.lean ====
section
/-! SUPPORT. Facts of each instruction as syntax, one lemma per constructor. -/

namespace Sys2Proof.Laws.EncodingShape

/-- The instruction is in scope, its first byte selects a row of the dispatch table with its own handler
and mode, and its length is one byte more than the width of its mode (30_encoding.md R60, R61, R63). -/
def Statement (i : Instr) : Prop :=
  i.wellFormed = true ∧ (encode i).length = 1 + i.mode.width ∧
  ∃ op row, (encode i).head? = some op ∧ dispatch op = some row ∧ row.entry = i.entry

theorem brk : Statement .brk :=
  ⟨rfl, rfl, _, _, rfl, rfl, rfl⟩

theorem adcImm (imm : Byte) : Statement (.adcImm imm) :=
  ⟨rfl, rfl, _, _, rfl, rfl, rfl⟩

theorem staIndX (zp : Byte) : Statement (.staIndX zp) :=
  ⟨rfl, rfl, _, _, rfl, rfl, rfl⟩

theorem staZp (zp : Byte) : Statement (.staZp zp) :=
  ⟨rfl, rfl, _, _, rfl, rfl, rfl⟩

theorem staAbs (addr : Addr) : Statement (.staAbs addr) :=
  ⟨rfl, rfl, _, _, rfl, rfl, rfl⟩

theorem staIndY (zp : Byte) : Statement (.staIndY zp) :=
  ⟨rfl, rfl, _, _, rfl, rfl, rfl⟩

theorem staZpX (zp : Byte) : Statement (.staZpX zp) :=
  ⟨rfl, rfl, _, _, rfl, rfl, rfl⟩

theorem staAbsY (addr : Addr) : Statement (.staAbsY addr) :=
  ⟨rfl, rfl, _, _, rfl, rfl, rfl⟩

theorem staAbsX (addr : Addr) : Statement (.staAbsX addr) :=
  ⟨rfl, rfl, _, _, rfl, rfl, rfl⟩

theorem ldaIndX (zp : Byte) : Statement (.ldaIndX zp) :=
  ⟨rfl, rfl, _, _, rfl, rfl, rfl⟩

theorem ldaZp (zp : Byte) : Statement (.ldaZp zp) :=
  ⟨rfl, rfl, _, _, rfl, rfl, rfl⟩

theorem ldaImm (imm : Byte) : Statement (.ldaImm imm) :=
  ⟨rfl, rfl, _, _, rfl, rfl, rfl⟩

theorem tax : Statement .tax :=
  ⟨rfl, rfl, _, _, rfl, rfl, rfl⟩

theorem ldaAbs (addr : Addr) : Statement (.ldaAbs addr) :=
  ⟨rfl, rfl, _, _, rfl, rfl, rfl⟩

theorem ldaIndY (zp : Byte) : Statement (.ldaIndY zp) :=
  ⟨rfl, rfl, _, _, rfl, rfl, rfl⟩

theorem ldaZpX (zp : Byte) : Statement (.ldaZpX zp) :=
  ⟨rfl, rfl, _, _, rfl, rfl, rfl⟩

theorem ldaAbsY (addr : Addr) : Statement (.ldaAbsY addr) :=
  ⟨rfl, rfl, _, _, rfl, rfl, rfl⟩

theorem ldaAbsX (addr : Addr) : Statement (.ldaAbsX addr) :=
  ⟨rfl, rfl, _, _, rfl, rfl, rfl⟩

theorem inx : Statement .inx :=
  ⟨rfl, rfl, _, _, rfl, rfl, rfl⟩

theorem sbcImm (imm : Byte) : Statement (.sbcImm imm) :=
  ⟨rfl, rfl, _, _, rfl, rfl, rfl⟩

end Sys2Proof.Laws.EncodingShape
end

