-- ==== Sys2Proof/Laws/Run.lean ====
section
/-! SUPPORT. When the host is answered, one more step of `Host.Core.run core` and of `runLoop`, by the outcome of the first step, and
the induction over the steps of run() packaged once. -/

namespace Sys2Proof.Machine

/-! ### The host between calls of `run()` -/

theorem betweenRuns_of_stopped {α : Type} {s : State} (h : s.runStatus ≠ .running) (r : Except HostError α) :
    s.betweenRuns r = r :=
  if_neg h

theorem betweenRuns_of_running {α : Type} {s : State} (h : s.runStatus = .running) (r : Except HostError α) :
    s.betweenRuns r = .error .engineRunning :=
  if_pos h

/-- The host is answered with a result only between calls of `run()`. -/
theorem betweenRuns_eq_ok {α : Type} {s : State} {r : Except HostError α} {v : α}
    (h : s.betweenRuns r = .ok v) : s.runStatus ≠ .running ∧ r = .ok v := by
  by_cases hr : s.runStatus = .running
  · rw [betweenRuns_of_running hr] at h
    cases h
  · exact ⟨hr, by rwa [betweenRuns_of_stopped hr] at h⟩

/-- What a load that succeeds leaves (70_reset_and_hazards.md R232). -/
theorem load_cases {p : List Byte} {s t : State} (h : load p s = .ok t) :
    programFits p = true ∧
      t = (s.writeBytes Config.loadBase p).memWrite16 Config.resetVectorAddr Config.resetVectorValue := by
  unfold load at h
  split at h
  · rename_i hp
    cases h
    exact ⟨hp, rfl⟩
  · cases h

/-- What a load_and_run that the host is answered is (R236). -/
theorem loadAndRun_cases {n : Nat} {p : List Byte} {s : State} {r : RunProgress}
    (h : loadAndRun n p s = .ok r) :
    s.runStatus ≠ .running ∧ ∃ t, load p s = .ok t ∧ r = run n (hostReset t) := by
  obtain ⟨hr, h⟩ := betweenRuns_eq_ok h
  split at h
  · rename_i t ht
    cases h
    exact ⟨hr, t, ht, rfl⟩
  · cases h

/-! ### `Host.Core.run core` -/

/-- For any machine: a first step that answers a next state. -/
theorem run_of_next (M : Host.Core) {s s' : M.State} (h : M.step s = .next s') (k : Nat) :
    M.run (k + 1) s = M.run k s' := by
  rw [Host.Core.run, h]

/-- For any machine: a first step that faults. -/
theorem run_of_fault (M : Host.Core) {s : M.State} {f : M.Fault} (h : M.step s = .fault f) (k : Nat) :
    M.run (k + 1) s = .fault f := by
  rw [Host.Core.run, h]

theorem core_run_of_next {s s' : State} (h : step s = .next s') (k : Nat) :
    Host.Core.run core (k + 1) s = Host.Core.run core k s' :=
  run_of_next core h k

theorem core_run_of_fault {s : State} {f : Fault} (h : step s = .fault f) (k : Nat) :
    Host.Core.run core (k + 1) s = .fault f :=
  run_of_fault core h k

/-! ### `runLoop` -/

theorem runLoop_of_halt {s s' : State} (h : step s = .next s') (hh : s'.runStatus = .halted) (n : Nat) :
    runLoop (n + 1) s = .returned .okHalted s' := by
  simp only [runLoop, h, hh, if_true]

theorem runLoop_of_next {s s' : State} (h : step s = .next s') (hh : s'.runStatus ≠ .halted) (n : Nat) :
    runLoop (n + 1) s = runLoop n s' := by
  simp only [runLoop, h, if_neg hh]

theorem runLoop_of_fault {s : State} {f : Fault} (h : step s = .fault f) (n : Nat) :
    runLoop (n + 1) s = .returned (.err f) (s.stopWithFault f) := by
  simp only [runLoop, h]

/-- What every step keeps, and a change of the run status keeps, holds of every state a run comes to. -/
theorem runLoop_keeps {P : State → Prop} (hstep : ∀ s t, P s → step s = .next t → P t)
    (hstatus : ∀ s r, P s → P (s.setRunStatus r)) (n : Nat) (s : State) (hs : P s) :
    (∀ t, runLoop n s = .executing t → P t) ∧ (∀ r t, runLoop n s = .returned r t → P t) := by
  induction n generalizing s with
  | zero =>
    refine ⟨fun t h => ?_, fun r t h => ?_⟩ <;> cases h
    exact hs
  | succ n ih =>
    cases h : step s with
    | next s' =>
      have hp := hstep s s' hs h
      by_cases hh : s'.runStatus = .halted
      · rw [runLoop_of_halt h hh]
        refine ⟨fun t h => ?_, fun r t h => ?_⟩ <;> cases h
        exact hp
      · rw [runLoop_of_next h hh]
        exact ih s' hp
    | fault f =>
      rw [runLoop_of_fault h]
      refine ⟨fun t h => ?_, fun r t h => ?_⟩ <;> cases h
      exact hstatus s _ hs
    | refused r => exact absurd h (step_ne_refused s r)

end Sys2Proof.Machine
end

