-- ==== Sys2Proof/Tests/Slice0.lean ====
section
/-! SUPPORT. The model's own tests. Expected values come from the spec: the opcode map R63 and
opcode_table.json's bit patterns for decoding, and the vectors of 95_test_vectors.md (their ids stand in
the theorem names) for single steps. Witnesses for the statements' hypotheses follow. -/

namespace Sys2Proof.Tests

open Sys2Proof.Machine Sys2Proof.Claims

/-! ### Helpers -/

/-- A state with bytes at PC and run() executing. -/
def ready (pc : Addr) (bytes : List Byte) (s : State) : State :=
  (({ s with pc := pc } : State).writeBytes pc bytes).beginRun

/-- A fresh state with some bytes of memory set. -/
def withMem (cells : List (Addr × Byte)) : State :=
  cells.foldl (fun s c => s.memWrite c.1 c.2) State.new

/-- The registers a test looks at. -/
structure Regs where
  a : Byte
  x : Byte
  y : Byte
  status : Byte
  pc : Addr
  deriving DecidableEq, Repr

/-- A, X, Y, status and PC after a step that goes on. -/
def regs : Host.Outcome State Fault Refusal → Option Regs
  | .next t => some ⟨t.a, t.x, t.y, t.status, t.pc⟩
  | .fault _ => none
  | .refused _ => none

/-- One byte of memory after a step that goes on. -/
def byteAfter (k : Addr) : Host.Outcome State Fault Refusal → Option Byte
  | .next t => some (t.memRead k)
  | .fault _ => none
  | .refused _ => none

/-- The fault of a step. -/
def faultOf : Host.Outcome State Fault Refusal → Option Fault
  | .next _ => none
  | .fault f => some f
  | .refused _ => none

/-! ### Decoding: one word of every constructor, from the bit patterns of spec/opcode_table.json -/

theorem test_decode_brk : decode [0b00000000] = .ok (.brk, []) := by decide
theorem test_decode_adcImm : decode [0b01101001, 0x10] = .ok (.adcImm 0x10, []) := by decide
theorem test_decode_staIndX : decode [0b10000001, 0x1F] = .ok (.staIndX 0x1F, []) := by decide
theorem test_decode_staZp : decode [0b10000101, 0x10] = .ok (.staZp 0x10, []) := by decide
theorem test_decode_staAbs : decode [0b10001101, 0x00, 0x02] = .ok (.staAbs 0x0200, []) := by decide
theorem test_decode_staIndY : decode [0b10010001, 0x20] = .ok (.staIndY 0x20, []) := by decide
theorem test_decode_staZpX : decode [0b10010101, 0xFF] = .ok (.staZpX 0xFF, []) := by decide
theorem test_decode_staAbsY : decode [0b10011001, 0xFF, 0x00] = .ok (.staAbsY 0x00FF, []) := by decide
theorem test_decode_staAbsX : decode [0b10011101, 0xFE, 0xFF] = .ok (.staAbsX 0xFFFE, []) := by decide
theorem test_decode_ldaIndX : decode [0b10100001, 0x10] = .ok (.ldaIndX 0x10, []) := by decide
theorem test_decode_ldaZp : decode [0b10100101, 0x10] = .ok (.ldaZp 0x10, []) := by decide
theorem test_decode_ldaImm : decode [0b10101001, 0x05] = .ok (.ldaImm 0x05, []) := by decide
theorem test_decode_tax : decode [0b10101010, 0xE8] = .ok (.tax, [0xE8]) := by decide
theorem test_decode_ldaAbs : decode [0b10101101, 0x34, 0x12] = .ok (.ldaAbs 0x1234, []) := by decide
theorem test_decode_ldaIndY : decode [0b10110001, 0x20] = .ok (.ldaIndY 0x20, []) := by decide
theorem test_decode_ldaZpX : decode [0b10110101, 0xFF] = .ok (.ldaZpX 0xFF, []) := by decide
theorem test_decode_ldaAbsY : decode [0b10111001, 0xFF, 0x00] = .ok (.ldaAbsY 0x00FF, []) := by decide
theorem test_decode_ldaAbsX : decode [0b10111101, 0xF0, 0x12] = .ok (.ldaAbsX 0x12F0, []) := by decide
theorem test_decode_inx : decode [0b11101000] = .ok (.inx, []) := by decide
theorem test_decode_sbcImm : decode [0b11101001, 0x02] = .ok (.sbcImm 0x02, []) := by decide

/-- R64, R65: 0x89 would be "STA immediate" and is absent; so are NOP, LDX # and JMP of a full 6502. -/
theorem test_decode_unimplemented :
    decode [0x89, 0x10] = .error (.unimplementedOpcode 0x89) ∧
    decode [0xEA] = .error (.unimplementedOpcode 0xEA) ∧
    decode [0xA2, 0x00] = .error (.unimplementedOpcode 0xA2) ∧
    decode [0x4C, 0x00, 0x80] = .error (.unimplementedOpcode 0x4C) := by decide

theorem test_decode_short : decode [] = .error .noBytes ∧ decode [0xA9] = .error (.missingOperand 0xA9) ∧
    decode [0xAD, 0x34] = .error (.missingOperand 0xAD) := by decide

/-- A table word's later bytes count on from bit 8, and bits from `nbits` up are 0. -/
theorem test_decodeTableWord : decodeTableWord 24 0x1234AD = some (.ldaAbs 0x1234) ∧
    decodeTableWord 8 0xAD = some (.ldaAbs 0x0000) ∧ decodeTableWord 16 0x05A9 = some (.ldaImm 0x05) ∧
    decodeTableWord 8 0xFF = none := by decide

theorem test_withFetchWord :
    regs (step (State.reset.withFetchWord 16 0x80A9)) = some ⟨0x80, 0x00, 0x00, 0x80, 0x0002⟩ := by decide

/-! ### Well-formedness refuses what is ill formed -/

theorem test_wellFormed_lda_none : (Entry.mk .lda .noneAddressing).wellFormed = false := by decide
theorem test_wellFormed_lda_zeroPageY : (Entry.mk .lda .zeroPageY).wellFormed = false := by decide
theorem test_wellFormed_sta_immediate : (Entry.mk .sta .immediate).wellFormed = false := by decide
theorem test_wellFormed_sta_none : (Entry.mk .sta .noneAddressing).wellFormed = false := by decide
theorem test_wellFormed_sta_zeroPageY : (Entry.mk .sta .zeroPageY).wellFormed = false := by decide
theorem test_wellFormed_adc_zeroPage : (Entry.mk .adc .zeroPage).wellFormed = false := by decide
theorem test_wellFormed_sbc_absolute : (Entry.mk .sbc .absolute).wellFormed = false := by decide
theorem test_wellFormed_tax_immediate : (Entry.mk .tax .immediate).wellFormed = false := by decide
theorem test_wellFormed_inx_zeroPage : (Entry.mk .inx .zeroPage).wellFormed = false := by decide
theorem test_wellFormed_brk_immediate : (Entry.mk .brk .immediate).wellFormed = false := by decide
theorem test_wellFormed_program_too_large : programFits (List.replicate 0x8001 0xEA) = false := by
  simp only [programFits, List.length_replicate]; decide
theorem test_wf_unsorted : Memory.wf [(2, 0x01), (1, 0x01)] = false := by decide
theorem test_wf_repeated : Memory.wf [(1, 0x01), (1, 0x02)] = false := by decide
theorem test_wf_default_byte : Memory.wf [(1, 0x00)] = false := by decide
theorem test_wf_outside : Memory.wf [(65536, 0x01)] = false := by decide

/-! ### LDA (95_test_vectors.md 2.3, 2.2) -/

theorem test_lda_L1 : regs (step (ready 0x8000 [0xA1, 0x10]
    { withMem [(0x14, 0x00), (0x15, 0x02), (0x0200, 0x80)] with x := 0x04 })) =
    some ⟨0x80, 0x04, 0x00, 0x80, 0x8002⟩ := by decide
theorem test_lda_L2 : regs (step (ready 0x8000 [0xA5, 0x10] { State.new with a := 0x33 })) =
    some ⟨0x00, 0x00, 0x00, 0x02, 0x8002⟩ := by decide
/-- Z3: only Z and N of a status of ones change. -/
theorem test_lda_Z3 : regs (step (ready 0x8000 [0xA9, 0x00] { State.new with status := 0xFF })) =
    some ⟨0x00, 0x00, 0x00, 0x7F, 0x8002⟩ := by decide
/-- The first step of E9: an immediate operand at 0x0000 for an opcode at 0xFFFF. -/
theorem test_lda_E9 : regs (step (ready 0xFFFF [0xA9, 0x80] State.new)) =
    some ⟨0x80, 0x00, 0x00, 0x80, 0x0001⟩ := by decide
theorem test_lda_L4 : regs (step (ready 0x8000 [0xAD, 0x34, 0x12] (withMem [(0x1234, 0x7F)]))) =
    some ⟨0x7F, 0x00, 0x00, 0x00, 0x8003⟩ := by decide
/-- The first step of E10: the operand's high byte from 0x0000 (D1). -/
theorem test_lda_E10 : regs (step (ready 0xFFFE [0xAD, 0x34, 0x12] (withMem [(0x1234, 0x5A)]))) =
    some ⟨0x5A, 0x00, 0x00, 0x00, 0x0001⟩ := by decide
theorem test_lda_L5 : regs (step (ready 0x8000 [0xB1, 0x20]
    { withMem [(0x20, 0xF8), (0x21, 0x02), (0x0308, 0x01)] with y := 0x10 })) =
    some ⟨0x01, 0x00, 0x10, 0x00, 0x8002⟩ := by decide
theorem test_lda_L6 : regs (step (ready 0x8000 [0xB5, 0xFF] { withMem [(0x01, 0x99)] with x := 0x02 })) =
    some ⟨0x99, 0x02, 0x00, 0x80, 0x8002⟩ := by decide
theorem test_lda_L7 : regs (step (ready 0x8000 [0xB9, 0xFF, 0x00] { State.new with y := 0x01, status := 0x01 })) =
    some ⟨0x00, 0x00, 0x01, 0x03, 0x8003⟩ := by decide
theorem test_lda_L8 : regs (step (ready 0x8000 [0xBD, 0xF0, 0x12] { withMem [(0x1310, 0x42)] with x := 0x20 })) =
    some ⟨0x42, 0x20, 0x00, 0x00, 0x8003⟩ := by decide

/-! ### STA (2.4) -/

theorem test_sta_S1 : byteAfter 0x0300 (step (ready 0x8000 [0x81, 0x1F]
    { withMem [(0x20, 0x00), (0x21, 0x03)] with a := 0x55, x := 0x01 })) = some 0x55 := by decide
theorem test_sta_S2 : regs (step (ready 0x8000 [0x85, 0x10] { State.new with a := 0xBA, status := 0xC3 })) =
    some ⟨0xBA, 0x00, 0x00, 0xC3, 0x8002⟩ ∧
    byteAfter 0x0010 (step (ready 0x8000 [0x85, 0x10] { State.new with a := 0xBA, status := 0xC3 })) =
      some 0xBA := by decide
theorem test_sta_S3 : byteAfter 0x0200 (step (ready 0x8000 [0x8D, 0x00, 0x02] { State.new with a := 0x01 })) =
    some 0x01 := by decide
/-- S10: an STA over its own operand byte still advances PC by 3. -/
theorem test_sta_S10 :
    byteAfter 0x8001 (step (ready 0x8000 [0x8D, 0x01, 0x80] { State.new with a := 0xFF })) = some 0xFF ∧
    regs (step (ready 0x8000 [0x8D, 0x01, 0x80] { State.new with a := 0xFF })) =
      some ⟨0xFF, 0x00, 0x00, 0x00, 0x8003⟩ := by decide
theorem test_sta_S4 : byteAfter 0x0300 (step (ready 0x8000 [0x91, 0x20]
    { withMem [(0x20, 0x00), (0x21, 0x03)] with a := 0x06 })) = some 0x06 := by decide
theorem test_sta_S5 : byteAfter 0x0052 (step (ready 0x8000 [0x95, 0x10] { State.new with a := 0x42, x := 0x42 })) =
    some 0x42 := by decide
theorem test_sta_S8 :
    byteAfter 0x0001 (step (ready 0x8000 [0x95, 0xFF] { State.new with a := 0x77, x := 0x02 })) = some 0x77 ∧
    byteAfter 0x0101 (step (ready 0x8000 [0x95, 0xFF] { State.new with a := 0x77, x := 0x02 })) = some 0x00 := by
  decide
theorem test_sta_S6 : byteAfter 0x0100 (step (ready 0x8000 [0x99, 0xFF, 0x00]
    { State.new with a := 0x11, y := 0x01 })) = some 0x11 := by decide
theorem test_sta_S7 : byteAfter 0x0243 (step (ready 0x8000 [0x9D, 0x00, 0x02]
    { State.new with a := 0x42, x := 0x43 })) = some 0x42 := by decide
theorem test_sta_S9 : byteAfter 0x0001 (step (ready 0x8000 [0x9D, 0xFE, 0xFF]
    { State.new with a := 0x99, x := 0x03 })) = some 0x99 := by decide

/-! ### TAX, INX (2.5), ADC (2.6), SBC (2.7) -/

theorem test_tax_T1 : regs (step (ready 0x8000 [0xAA] { State.new with x := 0x55, status := 0x80 })) =
    some ⟨0x00, 0x00, 0x00, 0x02, 0x8001⟩ := by decide
theorem test_tax_T3 : regs (step (ready 0x8000 [0xAA] { State.new with a := 0x7F, x := 0x80, status := 0xC1 })) =
    some ⟨0x7F, 0x7F, 0x00, 0x41, 0x8001⟩ := by decide
theorem test_inx_I2 : regs (step (ready 0x8000 [0xE8] { State.new with x := 0x7F })) =
    some ⟨0x00, 0x80, 0x00, 0x80, 0x8001⟩ := by decide
theorem test_inx_I5 : regs (step (ready 0x8000 [0xE8] { State.new with x := 0xFF, status := 0x3C })) =
    some ⟨0x00, 0x00, 0x00, 0x3E, 0x8001⟩ := by decide
theorem test_adc_AC11 : regs (step (ready 0x8000 [0x69, 0x90] { State.new with a := 0xD0 })) =
    some ⟨0x60, 0x00, 0x00, 0x41, 0x8002⟩ := by decide
theorem test_adc_AC14 : regs (step (ready 0x8000 [0x69, 0x00] { State.new with a := 0x7F, status := 0x01 })) =
    some ⟨0x80, 0x00, 0x00, 0xC0, 0x8002⟩ := by decide
/-- SB1, the corrected W16 (90_conflicts.md C1). -/
theorem test_sbc_SB1 : regs (step (ready 0x8000 [0xE9, 0x02] { State.new with a := 0x01, status := 0x01 })) =
    some ⟨0xFF, 0x00, 0x00, 0x80, 0x8002⟩ := by decide
theorem test_sbc_SB19 : regs (step (ready 0x8000 [0xE9, 0xFF] State.new)) =
    some ⟨0x00, 0x00, 0x00, 0x02, 0x8002⟩ := by decide

/-! ### The flag updater on more vectors (2.6, 2.7) -/

theorem test_addWithCarry_AC18 : addWithCarry 0xFF 0xFF true = ⟨0xFF, true, false⟩ := by decide
theorem test_addWithCarry_AC15 : addWithCarry 0x80 0x80 false = ⟨0x00, true, true⟩ := by decide
theorem test_subWithBorrow_SB4 : subWithBorrow 0x50 0xB0 true = ⟨0xA0, false, true⟩ := by decide
theorem test_subWithBorrow_SB17 : subWithBorrow 0x0A 0x03 false = ⟨0x06, true, false⟩ := by decide

/-! ### The resolver (2.1), BRK and faults (2.8) -/

theorem test_resolve_A8 : resolve .zeroPageY 0x8000 { withMem [(0x8001, 0xFF)] with y := 0x02 } = .ok 0x0001 := by
  decide
theorem test_resolve_A10 : resolve .absolute 0xFFFE (withMem [(0xFFFF, 0x34), (0x0000, 0x12)]) = .ok 0x1234 := by
  decide
theorem test_resolve_A16 : resolve .indirectX 0x8000
    { withMem [(0x8001, 0xFE), (0xFF, 0x34), (0x00, 0x12)] with x := 0x01 } = .ok 0x1234 := by decide
theorem test_resolve_A20 : resolve .indirectY 0x8000
    { withMem [(0x8001, 0x40), (0x40, 0xFF), (0x41, 0xFF)] with y := 0x01 } = .ok 0x0000 := by decide

/-- E3. -/
theorem test_brk_E3 : step (ready 0xFFFF [0x00] State.new) =
    .next { State.new with pc := 0x0000, runStatus := .halted } := by rfl
/-- E2: a run on the state after `new(); reset()` halts at once. -/
theorem test_brk_E2 : run 1 State.reset = .returned .okHalted { State.new with pc := 0x0001, runStatus := .halted } := by
  decide
theorem test_fault_E6 : faultOf (step (ready 0x8000 [0x89, 0x10] State.new)) =
    some (.unimplementedOpcode 0x89 0x8000) := by decide
theorem test_halted_stays : step { State.new with runStatus := .halted } = .next { State.new with runStatus := .halted } := by
  rfl

/-! ### Host operations (2.9) -/

/-- H2: the program and the vector are in memory, PC is still 0x0000. -/
theorem test_load_H2 : load [0xA9, 0x05, 0x00] State.new =
    .ok { State.new with mem := [(0x8000, 0xA9), (0x8001, 0x05), (0xFFFD, 0x80)] } := by rfl
theorem test_load_H4 : load (List.replicate 0x8001 0xEA) State.new = .error (.programTooLarge 0x8001) := by
  simp only [load, programFits, List.length_replicate]; rfl
theorem test_reset_H6 : (hostReset (withMem [(0xFFFD, 0x90)])).pc = 0x9000 := by decide
theorem test_reset_H7 : hostReset { withMem [(0xFFFD, 0x80)] with a := 0x12, x := 0x34, y := 0x56, status := 0xFF } =
    { withMem [(0xFFFD, 0x80)] with pc := 0x8000 } := by decide

/-- R237, R43: what the host reads, the word at 0xFFFF with its high byte from 0x0000 (D1). -/
theorem test_hostInspect :
    hostInspect (.memRead16 0xFFFF) (withMem [(0xFFFF, 0x34), (0x0000, 0x12)]) = .ok (.word 0x1234) ∧
    hostInspect (.memRead 0xFFFF) (withMem [(0xFFFF, 0x34), (0x0000, 0x12)]) = .ok (.byte 0x34) ∧
    hostInspect .y { State.new with a := 0x01, x := 0x02, y := 0x03 } = .ok (.byte 0x03) := by decide

/-- R44: a host word write at 0xFFFF, with its high byte at 0x0000 (D1). -/
theorem test_host_word_write_wraps : applyHostOp (.memWrite16 0xFFFF 0x1234) State.new =
    .ok { State.new with mem := [(0x0000, 0x12), (0xFFFF, 0x34)] } := by decide

/-! ### Witnesses: states that meet the statements' hypotheses -/

/-- The bytes of every form at the top of memory (they wrap to 0x0000) while run() executes. -/
def Stands (bytes : List Byte) : Prop :=
  (ready 0xFFFF bytes State.new).runStatus = .running ∧
    BytesAt (ready 0xFFFF bytes State.new).pc bytes (ready 0xFFFF bytes State.new)

theorem witness_implied_forms_stand : Stands [0x00] ∧ Stands [0xAA] ∧ Stands [0xE8] := by
  refine ⟨⟨rfl, ?_⟩, ⟨rfl, ?_⟩, ⟨rfl, ?_⟩⟩ <;> exact ⟨rfl, trivial⟩

theorem witness_one_byte_forms_stand :
    Stands [0x69, 0xFF] ∧ Stands [0x81, 0xFF] ∧ Stands [0x85, 0xFF] ∧ Stands [0x91, 0xFF] ∧
    Stands [0x95, 0xFF] ∧ Stands [0xA1, 0xFF] ∧ Stands [0xA5, 0xFF] ∧ Stands [0xA9, 0xFF] ∧
    Stands [0xB1, 0xFF] ∧ Stands [0xB5, 0xFF] ∧ Stands [0xE9, 0xFF] := by
  refine ⟨⟨rfl, ?_⟩, ⟨rfl, ?_⟩, ⟨rfl, ?_⟩, ⟨rfl, ?_⟩, ⟨rfl, ?_⟩, ⟨rfl, ?_⟩, ⟨rfl, ?_⟩, ⟨rfl, ?_⟩,
    ⟨rfl, ?_⟩, ⟨rfl, ?_⟩, ⟨rfl, ?_⟩⟩ <;> exact ⟨rfl, rfl, trivial⟩

theorem witness_two_byte_forms_stand :
    Stands [0x8D, 0xFF, 0xFF] ∧ Stands [0x99, 0xFF, 0xFF] ∧ Stands [0x9D, 0xFF, 0xFF] ∧
    Stands [0xAD, 0xFF, 0xFF] ∧ Stands [0xB9, 0xFF, 0xFF] ∧ Stands [0xBD, 0xFF, 0xFF] := by
  refine ⟨⟨rfl, ?_⟩, ⟨rfl, ?_⟩, ⟨rfl, ?_⟩, ⟨rfl, ?_⟩, ⟨rfl, ?_⟩, ⟨rfl, ?_⟩⟩ <;>
    exact ⟨rfl, rfl, rfl, trivial⟩

/-- OpcodeMapHasExactlyTheTwentyRows, UnimplementedOpcodeFaultsAndChangesNothing and the last clause of
StaWritesAtTheResolvedAddress: bytes out of scope, at a PC while run() executes. -/
theorem witness_unimplemented_opcode :
    (0x89 : Byte) ∉ opcodesInScope ∧ (0xFF : Byte) ∉ opcodesInScope ∧
    (ready 0xFFFF [0xFF] State.new).runStatus = .running ∧
    (ready 0xFFFF [0xFF] State.new).memRead 0xFFFF ∉ opcodesInScope ∧
    (ready 0x0000 [0x89] State.new).runStatus = .running ∧
    (ready 0x0000 [0x89] State.new).memRead 0x0000 = 0x89 := by decide

/-- DecodeGivesInstrIffBytesAreItsEncoding. -/
theorem witness_decode : decode [0xBD, 0xF0, 0x12, 0x00] = .ok (.ldaAbsX 0x12F0, [0x00]) ∧
    encode (.ldaAbsX 0x12F0) ++ [0x00] = [0xBD, 0xF0, 0x12, 0x00] := by decide

/-- StepExecutesTheInstructionAtPc: from Idle (the reset state, whose memory is BRK) and from Running. -/
theorem witness_step_decodes :
    State.reset.runStatus = .idle ∧
    decode [State.reset.memRead 0x0000, State.reset.memRead 0x0001, State.reset.memRead 0x0002] =
      .ok (.brk, [0x00, 0x00]) ∧
    (ready 0xFFFE [0xAD, 0x34, 0x12] State.new).runStatus = .running ∧
    decode (ready 0xFFFE [0xAD, 0x34, 0x12] State.new).fetchBytes = .ok (.ldaAbs 0x1234, []) := by decide

/-- PcAdvancesByTheWidthOfTheMode: a step of each of its three classes at the top of memory. -/
theorem witness_pc_classes :
    regs (step (ready 0xFFFF [0xAA] State.new)) = some ⟨0x00, 0x00, 0x00, 0x02, 0x0000⟩ ∧
    regs (step (ready 0xFFFF [0xA9, 0x01] State.new)) = some ⟨0x01, 0x00, 0x00, 0x00, 0x0001⟩ ∧
    regs (step (ready 0xFFFE [0x8D, 0x00, 0x02] State.new)) = some ⟨0x00, 0x00, 0x00, 0x00, 0x0001⟩ := by decide

/-- StepFaultsOnlyOnAnUnimplementedOpcode, ResolverGivesAbsoluteAddressesModulo65536: both ways a fault is
raised. -/
theorem witness_faults :
    faultOf (step (ready 0x8000 [0x02] State.new)) = some (.unimplementedOpcode 0x02 0x8000) ∧
    resolve .noneAddressing 0x8000 (withMem [(0x8000, 0xAA)]) = .error (.invalidAddressingMode 0xAA 0x8000) := by
  decide

/-- LdaReadsAtTheResolvedAddress, StaWritesAtTheResolvedAddress, StoreIsSeenByTheNextFetch. -/
theorem witness_load_and_store_at_pc :
    (ready 0xFFFF [0xA1, 0xFF] State.new).runStatus = .running ∧ (Instr.ldaIndX 0xFF).handler = .lda ∧
    BytesAt 0xFFFF (encode (.ldaIndX 0xFF)) (ready 0xFFFF [0xA1, 0xFF] State.new) ∧
    (ready 0xFFFE [0x8D, 0x01, 0x00] State.new).runStatus = .running ∧ (Instr.staAbs 0x0001).handler = .sta ∧
    BytesAt 0xFFFE (encode (.staAbs 0x0001)) (ready 0xFFFE [0x8D, 0x01, 0x00] State.new) ∧
    storeAddress (.staAbs 0x0001) (ready 0xFFFE [0x8D, 0x01, 0x00] State.new) = some 0x0001 ∧
    byteAfter 0x0001 (step (ready 0xFFFE [0x8D, 0x01, 0x00] { State.new with a := 0xE8 })) = some 0xE8 :=
  ⟨rfl, rfl, ⟨rfl, rfl, trivial⟩, rfl, rfl, ⟨rfl, rfl, rfl, trivial⟩, rfl, by decide⟩

/-- BrkHaltsAfterItsByte. -/
theorem witness_brk_at_pc : (ready 0xFFFF [0x00] State.new).runStatus = .running ∧
    (ready 0xFFFF [0x00] State.new).memRead 0xFFFF = 0x00 := by decide

/-- ZeroAndNegativeFollowTheValueWritten: an instruction of each of the five handlers completes. -/
theorem witness_zero_negative :
    regs (exec (.ldaImm 0x80) State.new) = some ⟨0x80, 0x00, 0x00, 0x80, 0x0002⟩ ∧
    regs (exec (.adcImm 0x00) State.new) = some ⟨0x00, 0x00, 0x00, 0x02, 0x0002⟩ ∧
    regs (exec (.sbcImm 0x00) State.new) = some ⟨0xFF, 0x00, 0x00, 0x80, 0x0002⟩ ∧
    regs (exec .tax { State.new with a := 0xFF }) = some ⟨0xFF, 0xFF, 0x00, 0x80, 0x0001⟩ ∧
    regs (exec .inx { State.new with x := 0xFF }) = some ⟨0x00, 0x00, 0x00, 0x02, 0x0001⟩ := by decide

/-- OnlyAdcAndSbcChangeCarryAndOverflow, StateChangesOnlyByTheInstructionsNamed: a step of every named kind
of change. -/
theorem witness_changes :
    regs (step (ready 0x8000 [0xAA] { State.new with a := 0x01, status := 0x41 })) =
      some ⟨0x01, 0x01, 0x00, 0x41, 0x8001⟩ ∧
    byteAfter 0xFFFF (step (ready 0x8000 [0x8D, 0xFF, 0xFF] { State.new with a := 0x01 })) = some 0x01 ∧
    regs (step (ready 0x8000 [0xA9, 0x01] { State.new with status := 0xFF })) =
      some ⟨0x01, 0x00, 0x00, 0x7D, 0x8002⟩ ∧
    step (ready 0x0000 [0x00] State.new) = .next { State.new with pc := 0x0001, runStatus := .halted } :=
  ⟨by decide, by decide, by decide, rfl⟩

/-- MemWriteChangesOneByte, WordAccessIsLittleEndianAndWraps: an address other than the ones written. -/
theorem witness_other_addresses : (0x0001 : Addr) ≠ 0xFFFF ∧ (0x0001 : Addr) ≠ 0xFFFF + 1 := by decide

/-- CanonicalMemoriesThatReadAlikeAreEqual: two states that differ, with one memory that is not empty. -/
theorem witness_read_alike : State.Inv (withMem [(0xFFFF, 0x01)]) ∧
    State.Inv { withMem [(0xFFFF, 0x01)] with a := 0x01 } ∧
    (∀ k, (withMem [(0xFFFF, 0x01)]).memRead k = ({ withMem [(0xFFFF, 0x01)] with a := 0x01 } : State).memRead k) :=
  ⟨rfl, rfl, fun _ => rfl⟩

/-- StepKeepsTheInvariant, HostOperationsKeepTheInvariant: a store of a byte, and of the byte that an unlisted
address reads as, from a canonical memory; and a host write. -/
theorem witness_invariant :
    State.Inv (ready 0x8000 [0x85, 0x10] { withMem [(0x10, 0x77)] with a := 0x00 }) ∧
    byteAfter 0x10 (step (ready 0x8000 [0x85, 0x10] { withMem [(0x10, 0x77)] with a := 0x00 })) = some 0x00 ∧
    applyHostOp (.memWrite 0x10 0x00) (withMem [(0x10, 0x77)]) = .ok State.new ∧
    run 1 State.reset = .returned .okHalted { State.new with pc := 0x0001, runStatus := .halted } ∧
    run 0 State.reset = .executing { State.reset with runStatus := .running } :=
  ⟨rfl, by decide, rfl, by decide, rfl⟩

/-- OnlyTheHostChangesY, ReservedStatusBitsAreKept: host operations that change Y and bits 2 and 5 of status,
and a run that returns. -/
theorem witness_host_changes :
    applyHostOp .reset { State.new with y := 0x01, status := 0x24 } = .ok State.new ∧
    applyHostOp (.writeY 0x01) State.new = .ok { State.new with y := 0x01 } ∧
    applyHostOp (.writeStatus 0x24) State.new = .ok { State.new with status := 0x24 } ∧
    run 1 { State.reset with y := 0x01, status := 0x24 } =
      .returned .okHalted { State.new with y := 0x01, status := 0x24, pc := 0x0001, runStatus := .halted } := by
  decide

/-- OnlyTheCarryBitOfStatusIsRead: two states that differ in every bit of status but C, and a step. -/
theorem witness_status : SameButStatus (ready 0x8000 [0x69, 0x01] State.new)
      { ready 0x8000 [0x69, 0x01] State.new with status := 0xFE } ∧
    (0xFE : Byte).getLsbD 0 = (ready 0x8000 [0x69, 0x01] State.new).status.getLsbD 0 ∧
    regs (step (ready 0x8000 [0x69, 0x01] State.new)) = some ⟨0x01, 0x00, 0x00, 0x00, 0x8002⟩ :=
  ⟨⟨rfl, rfl, rfl, rfl, rfl, rfl⟩, by decide, by decide⟩

/-- RunStatusDoesNotChangeHowInstructionsCompute. -/
theorem witness_run_status : regs (exec .inx { State.new with runStatus := .halted }) =
    some ⟨0x00, 0x01, 0x00, 0x00, 0x0001⟩ := by decide

/-- ResetLeavesZeroRegistersAndTheVector, LoadWritesTheProgramAndTheVector, LoadAndRunIsLoadThenResetThenRun: a
load that succeeds; the empty program and the longest are within the bound, one byte more is not. -/
theorem witness_load : (∃ t, load [0xA9, 0x05, 0x00] State.new = .ok t) ∧
    ([] : List Byte).length ≤ 0x8000 ∧ (List.replicate 0x8000 (0xEA : Byte)).length ≤ 0x8000 ∧
    0x8000 < (List.replicate 0x8001 (0xEA : Byte)).length ∧
    (∃ e, load (List.replicate 0x8001 0xEA) State.new = .error e) ∧ State.new.runStatus ≠ .running ∧
    ({ State.new with a := 0x01 } : State).mem = State.new.mem :=
  ⟨⟨_, rfl⟩, by decide, by rw [List.length_replicate], by rw [List.length_replicate]; decide,
    ⟨_, test_load_H4⟩, by decide, rfl⟩

/-- HostWritesSetWhatTheyName, HostReadsGiveWhatTheStateHolds, HostActsOnlyBetweenCallsOfRun,
LoadAndRunIsLoadThenResetThenRun: a state of each clause. -/
theorem witness_host_writes : State.new.runStatus ≠ .running ∧ State.new.beginRun.runStatus = .running := by
  decide

/-- HostWriteIsSeenLikeAnEarlierSta: an STA at the top of memory, between runs. -/
theorem witness_host_write_like_sta : storeAddress (.staAbs 0xFFFF) { State.new with a := 0x01 } = some 0xFFFF ∧
    ({ State.new with a := 0x01 } : State).runStatus ≠ .running := by decide

/-- HostOperationsKeepTheInvariant: a load_and_run that returns, and one still executing. -/
theorem witness_load_and_run :
    loadAndRun 1 [0x00] State.new = .ok (.returned .okHalted
      { State.new with mem := [(0xFFFD, 0x80)], pc := 0x8001, runStatus := .halted }) ∧
    loadAndRun 0 [0x00] State.new = .ok (.executing
      { State.new with mem := [(0xFFFD, 0x80)], pc := 0x8000, runStatus := .running }) := by decide

/-- RunReturnsAtBrkOrAtAnUnimplementedOpcode, RunHasAtMostOneResult, RunAfterAFaultFaultsAgain,
CoreRunIsOneCallOfRun: runs that end each way, from Idle and from Running, and one still executing. -/
theorem witness_runs :
    run 1 State.reset = .returned .okHalted { State.new with pc := 0x0001, runStatus := .halted } ∧
    run 1 (withMem [(0x0000, 0xFF)]) = .returned (.err (.unimplementedOpcode 0xFF 0x0000))
      { withMem [(0x0000, 0xFF)] with runStatus := .faulted (.unimplementedOpcode 0xFF 0x0000) } ∧
    run 1 (withMem [(0x0000, 0xE8)]) = .executing
      { withMem [(0x0000, 0xE8)] with x := 0x01, pc := 0x0001, runStatus := .running } ∧
    State.reset.runStatus = .idle ∧ State.reset.beginRun.runStatus = .running := by decide

/-- A state whose memory holds the bytes `v` at the addresses of a list. -/
def filled (v : Byte) (l : List Nat) (s : State) : State :=
  l.foldl (fun s k => s.memWrite (BitVec.ofNat 16 k) v) s

theorem filled_memRead (v : Byte) (l : List Nat) (s : State) (a : Addr)
    (h : a.toNat ∈ l ∨ s.memRead a = v) : (filled v l s).memRead a = v := by
  induction l generalizing s with
  | nil => exact h.resolve_left (by simp)
  | cons k l ih =>
    refine ih _ ?_
    rw [State.memRead_memWrite]
    by_cases hk : a = BitVec.ofNat 16 k
    · exact .inr (if_pos hk)
    · rw [if_neg hk]
      refine h.imp (fun hm => (List.mem_cons.mp hm).resolve_left fun h' => hk ?_) id
      rw [← h', BitVec.ofNat_toNat, BitVec.setWidth_eq]

/-- SomeRunNeverReturns: memory that holds only INX bytes. -/
theorem witness_all_inx : ∀ k, (filled 0xE8 (List.range 65536) State.new).memRead k = 0xE8 :=
  fun k => filled_memRead _ _ _ k (.inl (List.mem_range.mpr k.isLt))

end Sys2Proof.Tests
end

/-! SUPPORT. Proofs of the statements about the state (10_state.md): lemmas first, in the order of the
definitions they speak of, then the obligations. -/

namespace Sys2Proof.Machine

open Sys2Proof.Claims

/-! ### Memory: canonical lists are determined by their reads -/

namespace Memory

theorem read_cons_self (b : Nat) (w : Byte) (m : List Host.Cell) : read ((b, w) :: m) b = w :=
  if_pos rfl

theorem read_cons_of_ne {b k : Nat} (w : Byte) (m : List Host.Cell) (h : k ≠ b) :
    read ((b, w) :: m) k = read m k :=
  if_neg h

/-- The byte listed first is not the default, so a memory that reads alike lists something at or below it. -/
theorem le_of_read_eq_cons {m m' : List Host.Cell} {lo lo' b : Nat} {w : Byte}
    (h : wfFrom lo ((b, w) :: m) = true) (h' : wfFrom lo' m' = true)
    (heq : ∀ k < Config.memSize, read ((b, w) :: m) k = read m' k) : lo' ≤ b := by
  obtain ⟨-, hb, hw, -⟩ := wfFrom_cons.mp h
  by_contra hlt
  refine hw ?_
  calc w = read ((b, w) :: m) b := (read_cons_self b w m).symm
    _ = read m' b := heq b hb
    _ = Config.memDefault := read_eq_default_of_lt h' (by omega)

/-- Canonical memories that read alike below MEM_SIZE are equal. -/
theorem eq_of_read_eq {m m' : List Host.Cell} {lo lo' : Nat} (h : wfFrom lo m = true)
    (h' : wfFrom lo' m' = true) (heq : ∀ k < Config.memSize, read m k = read m' k) : m = m' := by
  induction m generalizing lo lo' m' with
  | nil =>
    cases m' with
    | nil => rfl
    | cons c' m' =>
      obtain ⟨b', w'⟩ := c'
      have hle := le_of_read_eq_cons (lo' := b' + 1) h' rfl fun k hk => (heq k hk).symm
      omega
  | cons c m ih =>
    obtain ⟨b, w⟩ := c
    cases m' with
    | nil =>
      have hle := le_of_read_eq_cons (lo' := b + 1) h rfl heq
      omega
    | cons c' m' =>
      obtain ⟨b', w'⟩ := c'
      obtain ⟨-, hb, hw, hm⟩ := wfFrom_cons.mp h
      obtain ⟨-, hb', hw', hm'⟩ := wfFrom_cons.mp h'
      obtain rfl : b = b' := le_antisymm
        (le_of_read_eq_cons h' (wfFrom_cons.mpr ⟨le_rfl, hb, hw, hm⟩) fun k hk => (heq k hk).symm)
        (le_of_read_eq_cons h (wfFrom_cons.mpr ⟨le_rfl, hb', hw', hm'⟩) heq)
      obtain rfl : w = w' := by simpa [read_cons_self] using heq b hb
      have htail : ∀ k < Config.memSize, read m k = read m' k := fun k hk => by
        by_cases hkb : k = b
        · rw [read_eq_default_of_lt hm (by omega), read_eq_default_of_lt hm' (by omega)]
        · simpa [read_cons_of_ne _ _ hkb] using heq k hk
      rw [ih hm hm' htail]

end Memory

/-- A word read back after it is written: its two addresses never coincide (R43 to R45). -/
theorem State.memRead16_memWrite16_same (s : State) (a v : Addr) : (s.memWrite16 a v).memRead16 a = v := by
  simp [State.memRead16, State.memWrite16, State.memRead_memWrite, joinBytes_hi8_lo8]

/-! ### What a load and a host operation leave -/

/-- A load that succeeds changes memory alone (70_reset_and_hazards.md R232). -/
theorem load_frame {p : List Byte} {s t : State} (h : load p s = .ok t) :
    t.a = s.a ∧ t.x = s.x ∧ t.y = s.y ∧ t.status = s.status ∧ t.pc = s.pc ∧
      t.runStatus = s.runStatus := by
  obtain ⟨-, rfl⟩ := load_cases h
  exact State.writeBytes_frame s Config.loadBase p

/-- Y and status change only by reset() and by their own host writes. -/
theorem applyHostOp_y_status_cases {op : HostOp} {s t : State} (h : applyHostOp op s = .ok t) :
    (op = .reset ∧ t = hostReset s) ∨ (∃ v, op = .writeY v ∧ t = s.setY v) ∨
      (∃ v, op = .writeStatus v ∧ t = s.setStatus v) ∨ (t.y = s.y ∧ t.status = s.status) := by
  obtain ⟨-, h⟩ := betweenRuns_eq_ok h
  cases op with
  | load p =>
    obtain ⟨-, -, hy, hst, -⟩ := load_frame h
    exact .inr (.inr (.inr ⟨hy, hst⟩))
  | reset => cases h; exact .inl ⟨rfl, rfl⟩
  | writeY v => cases h; exact .inr (.inl ⟨v, rfl, rfl⟩)
  | writeStatus v => cases h; exact .inr (.inr (.inl ⟨v, rfl, rfl⟩))
  | writeA v | writeX v | writePc v | memWrite a v | memWrite16 a v =>
    cases h; exact .inr (.inr (.inr ⟨rfl, rfl⟩))

/-! ### What an instruction leaves, field by field -/

section
variable {i : Instr} {s t : State}

theorem Effect.y_eq (h : Effect i s t) : t.y = s.y := by
  cases h <;> rfl

theorem Effect.a_eq_or (h : Effect i s t) :
    t.a = s.a ∨ i.handler = .lda ∨ i.handler = .adc ∨ i.handler = .sbc := by
  cases h with
  | load h => exact .inr (.inl h)
  | adc imm h => subst h; exact .inr (.inr (.inl rfl))
  | sbc imm h => subst h; exact .inr (.inr (.inr rfl))
  | store | tax | inx | brk => exact .inl rfl

theorem Effect.x_eq_or (h : Effect i s t) : t.x = s.x ∨ i.handler = .tax ∨ i.handler = .inx := by
  cases h with
  | tax h => subst h; exact .inr (.inl rfl)
  | inx h => subst h; exact .inr (.inr rfl)
  | load | store | adc | sbc | brk => exact .inl rfl

theorem Effect.memRead_eq_or (h : Effect i s t) (k : Addr) :
    t.memRead k = s.memRead k ∨ i.handler = .sta ∧ storeAddress i s = some k := by
  cases h with
  | store h ea hs =>
    by_cases hk : k = ea
    · exact .inr ⟨h, hk ▸ hs⟩
    · exact .inl (by rw [storeAccumulator_memRead, if_neg hk])
  | load | tax | inx | adc | sbc | brk => exact .inl rfl

theorem Effect.runStatus_eq_or (h : Effect i s t) :
    t.runStatus = s.runStatus ∨ i = .brk ∧ t.runStatus = .halted := by
  cases h with
  | brk h => exact .inr ⟨h, rfl⟩
  | load | store | tax | inx | adc | sbc => exact .inl rfl

/-- The three things an instruction can do to status: nothing, Z and N from a value (R100), or the flag writes
of ADC and SBC (R180, R181). -/
theorem Effect.status_cases (h : Effect i s t) :
    ((i.handler = .sta ∨ i.handler = .brk) ∧ t.status = s.status) ∨
    ((i.handler = .lda ∨ i.handler = .tax ∨ i.handler = .inx) ∧
      ∃ v, t.status = zeroNegative v s.status) ∨
    ((i.handler = .adc ∨ i.handler = .sbc) ∧ ∃ r, t.status = (s.setAluResult r).status) := by
  cases h with
  | store h => exact .inl ⟨.inl h, rfl⟩
  | brk h => subst h; exact .inl ⟨.inr rfl, rfl⟩
  | load h _ v => exact .inr (.inl ⟨.inl h, v, rfl⟩)
  | tax h => subst h; exact .inr (.inl ⟨.inr (.inl rfl), _, rfl⟩)
  | inx h => subst h; exact .inr (.inl ⟨.inr (.inr rfl), _, rfl⟩)
  | adc imm h => subst h; exact .inr (.inr ⟨.inl rfl, _, rfl⟩)
  | sbc imm h => subst h; exact .inr (.inr ⟨.inr rfl, _, rfl⟩)

theorem Effect.reservedBit_eq (h : Effect i s t) {k : Nat} (hk : 2 ≤ k) (hk' : k ≤ 5) :
    t.status.getLsbD k = s.status.getLsbD k := by
  have h7 : k ≠ 7 := by omega
  have h6 : k ≠ 6 := by omega
  have h1 : k ≠ 1 := by omega
  have h0 : k ≠ 0 := by omega
  obtain ⟨-, hst⟩ | ⟨-, v, hst⟩ | ⟨-, r, hst⟩ := h.status_cases
  · rw [hst]
  · rw [hst, getLsbD_zeroNegative, if_neg h7, if_neg h1]
  · rw [hst, getLsbD_setAluResult, if_neg h7, if_neg h1, if_neg h6, if_neg h0]

theorem Effect.carry_overflow_eq (h : Effect i s t) (hadc : i.handler ≠ .adc) (hsbc : i.handler ≠ .sbc) :
    t.status.getLsbD 0 = s.status.getLsbD 0 ∧ t.status.getLsbD 6 = s.status.getLsbD 6 := by
  obtain ⟨-, hst⟩ | ⟨-, v, hst⟩ | ⟨hi, -⟩ := h.status_cases
  · simp [hst]
  · constructor <;> rw [hst, getLsbD_zeroNegative] <;> rfl
  · exact (hi.elim hadc hsbc).elim

theorem storeAddress_beginRun (i : Instr) (s : State) : storeAddress i s.beginRun = storeAddress i s := by
  cases i <;> rfl

/-! ### What a step does -/

theorem step_of_stopped (h : s.engineStopped = true) : step s = .next s :=
  if_pos h

theorem step_of_fetchInstr (hs : s.engineStopped = false) (hi : s.fetchInstr = .ok i) :
    step s = exec i s.beginRun := by
  simp [step, hs, hi]

theorem engineStopped_congr (h : s.runStatus = t.runStatus) : s.engineStopped = t.engineStopped := by
  simp only [State.engineStopped, h]

theorem engineStopped_of_running (h : s.runStatus = .running) : s.engineStopped = false := by
  simp only [State.engineStopped, h]

/-- A relation to the state before holds after a step when it is reflexive and the effect of an instruction
brings it about; `beginRun` is what precedes that effect. -/
theorem step_induction {R : State → State → Prop} (hrefl : ∀ s, R s s)
    (heff : ∀ i s t, Effect i s.beginRun t → R s t) (h : step s = .next t) : R s t := by
  obtain ⟨-, rfl⟩ | ⟨-, i, -, hi⟩ := step_cases h
  · exact hrefl _
  · exact heff i s t (exec_cases hi)

theorem step_y_eq (h : step s = .next t) : t.y = s.y :=
  step_induction (R := fun s t => t.y = s.y) (fun _ => rfl) (fun _ _ _ he => he.y_eq) h

theorem step_reservedBit_eq {k : Nat} (hk : 2 ≤ k) (hk' : k ≤ 5) (h : step s = .next t) :
    t.status.getLsbD k = s.status.getLsbD k :=
  step_induction (R := fun s t => t.status.getLsbD k = s.status.getLsbD k) (fun _ => rfl)
    (fun _ _ _ he => he.reservedBit_eq hk hk') h

/-- A value that every step keeps, and that does not depend on the run status, is kept by a run that
returns. -/
theorem run_returned_keeps {α : Type} {f : State → α} (hstep : ∀ s t, step s = .next t → f t = f s)
    (hstatus : ∀ s r, f (s.setRunStatus r) = f s) {n : Nat} {r : RunResult}
    (h : run n s = .returned r t) : f t = f s :=
  (runLoop_keeps (P := fun u => f u = f s) (fun u v hu huv => (hstep u v huv).trans hu)
    (fun u r hu => (hstatus u r).trans hu) n s.beginRun (hstatus s .running)).2 r t h

end

/-! ### The instruction whose bytes stand at PC -/

/-- A former that makes, from the bytes after the opcode byte, the instruction those bytes encode. -/
def FormerInverts (op : Byte) : Former → Prop
  | .implied i => encode i = [op]
  | .byte mk => ∀ b, encode (mk b) = [op, b]
  | .word mk => ∀ lo hi, encode (mk (joinBytes hi lo)) = [op, lo, hi]

theorem dispatchTable_formerInverts : ∀ row ∈ dispatchTable, FormerInverts row.opcode row.former := by
  simp [dispatchTable, FormerInverts, encode, lo8_joinBytes, hi8_joinBytes]

/-- Bytes that decode are the instruction's encoding, then the rest (30_encoding.md R60). -/
theorem eq_encode_append_of_decode {bytes : List Byte} {i : Instr} {rest : List Byte}
    (h : decode bytes = .ok (i, rest)) : bytes = encode i ++ rest := by
  cases bytes with
  | nil => cases h
  | cons op bytes =>
    simp only [decode] at h
    split at h
    · cases h
    · next row hrow =>
      obtain ⟨hmem, rfl⟩ := dispatch_some hrow
      have hinv := dispatchTable_formerInverts row hmem
      cases hf : row.former <;> rw [hf] at h hinv
      case implied j =>
        cases h
        rw [show encode i = _ from hinv]
        rfl
      case byte mk =>
        obtain _ | ⟨b, bytes⟩ := bytes <;> cases h
        rw [hinv b]
        rfl
      case word mk =>
        obtain _ | ⟨lo, _ | ⟨hi, bytes⟩⟩ := bytes <;> cases h
        rw [hinv lo hi]
        rfl

theorem bytesAt_of_append {xs ys : List Byte} {a : Addr} {s : State} (h : BytesAt a (xs ++ ys) s) :
    BytesAt a xs s := by
  induction xs generalizing a with
  | nil => trivial
  | cons x xs ih => exact And.imp_right ih h

theorem bytesAt_fetchBytes (s : State) : BytesAt s.pc s.fetchBytes s :=
  ⟨rfl, rfl, by rw [BitVec.add_assoc]; rfl, trivial⟩

/-- The instruction a fetch gives stands at PC, byte for byte. -/
theorem bytesAt_of_fetchInstr {s : State} {i : Instr} (h : s.fetchInstr = .ok i) :
    BytesAt s.pc (encode i) s := by
  obtain ⟨rest, hd⟩ := fetchInstr_ok h
  exact bytesAt_of_append (eq_encode_append_of_decode hd ▸ bytesAt_fetchBytes s)

/-! ### Status seen by a step: two states that differ in it -/

/-- An update of a status byte by which each bit depends on that bit alone. -/
def BitLocal (f : Byte → Byte) : Prop :=
  ∀ st st' k, st.getLsbD k = st'.getLsbD k → (f st).getLsbD k = (f st').getLsbD k

theorem bitLocal_id : BitLocal id := fun _ _ _ h => h

theorem BitLocal.comp {f g : Byte → Byte} (hf : BitLocal f) (hg : BitLocal g) : BitLocal (f ∘ g) :=
  fun _ _ k h => hf _ _ k (hg _ _ k h)

theorem bitLocal_setFlag (f : Flag) (b : Bool) : BitLocal (setFlag f b) := fun st st' k h => by
  rw [getLsbD_setFlag, getLsbD_setFlag, h]

theorem bitLocal_zeroNegative (v : Byte) : BitLocal (zeroNegative v) :=
  (bitLocal_setFlag .n _).comp (bitLocal_setFlag .z _)

/-- The status byte after the flag writes of ADC and SBC (R180, R181): what `State.setAluResult` makes
of it. -/
def aluStatus (r : AluResult) (st : Byte) : Byte :=
  zeroNegative r.result (setFlag .v r.overflow (setFlag .c r.carry st))

theorem bitLocal_aluStatus (r : AluResult) : BitLocal (aluStatus r) :=
  (bitLocal_zeroNegative _).comp ((bitLocal_setFlag .v _).comp (bitLocal_setFlag .c _))

theorem setAluResult_setStatus (r : AluResult) (s : State) (st : Byte) :
    (s.setStatus st).setAluResult r = (s.setAluResult r).setStatus (aluStatus r st) := rfl

theorem State.advancePc_setStatus (m : Mode) (s : State) (st : Byte) :
    (s.setStatus st).advancePc m = (s.advancePc m).setStatus st := rfl

theorem State.flag_c_setStatus {s : State} {st : Byte} (h : st.getLsbD 0 = s.status.getLsbD 0) :
    (s.setStatus st).flag .c = s.flag .c :=
  h

/-- With another status byte and the same C, an instruction leaves the same state but for status, to which it
does the same bit by bit. -/
theorem exec_setStatus {i : Instr} {s t : State} (h : exec i s = .next t) :
    ∃ f, BitLocal f ∧ ∀ st : Byte, st.getLsbD 0 = s.status.getLsbD 0 →
      exec i (s.setStatus st) = .next (t.setStatus (f st)) := by
  cases i with
  | brk | staIndX | staZp | staAbs | staIndY | staZpX | staAbsY | staAbsX =>
    exact ⟨id, bitLocal_id, fun _ _ => by cases h; rfl⟩
  | ldaIndX | ldaZp | ldaImm | ldaAbs | ldaIndY | ldaZpX | ldaAbsY | ldaAbsX =>
    exact ⟨_, bitLocal_zeroNegative t.a, fun _ _ => by cases h; rfl⟩
  | tax | inx => exact ⟨_, bitLocal_zeroNegative t.x, fun _ _ => by cases h; rfl⟩
  | adcImm imm =>
    refine ⟨_, bitLocal_aluStatus (addWithCarry s.a imm (s.flag .c)), fun st hst => ?_⟩
    cases h
    rw [exec, execAdcImm, State.setStatus_a, State.flag_c_setStatus hst, setAluResult_setStatus,
      State.advancePc_setStatus]
  | sbcImm imm =>
    refine ⟨_, bitLocal_aluStatus (subWithBorrow s.a imm (s.flag .c)), fun st hst => ?_⟩
    cases h
    rw [exec, execSbcImm, State.setStatus_a, State.flag_c_setStatus hst, setAluResult_setStatus,
      State.advancePc_setStatus]

/-- `exec_setStatus` for a step. -/
theorem step_setStatus {s t : State} (h : step s = .next t) :
    ∃ f, BitLocal f ∧ ∀ st : Byte, st.getLsbD 0 = s.status.getLsbD 0 →
      step (s.setStatus st) = .next (t.setStatus (f st)) := by
  obtain ⟨hs, rfl⟩ | ⟨hs, i, hi, he⟩ := step_cases h
  · exact ⟨id, bitLocal_id, fun st _ => step_of_stopped (s := t.setStatus st) hs⟩
  · obtain ⟨f, hf, hexec⟩ := exec_setStatus he
    refine ⟨f, hf, fun st hst => ?_⟩
    rw [step_of_fetchInstr (s := s.setStatus st) hs ((fetchInstr_congr rfl rfl).trans hi)]
    exact hexec st hst

theorem eq_setStatus_of_sameButStatus {s t : State} (h : SameButStatus s t) : t = s.setStatus t.status := by
  obtain ⟨ha, hx, hy, hpc, hm, hr⟩ := h
  exact State.ext_fields ha hx hy rfl hpc hm hr

/-! ### The run status -/

/-- No arm of `exec` reads the run status, and BRK's alone writes it. -/
theorem exec_setRunStatus {i : Instr} {s t : State} (h : exec i s = .next t) (r : RunStatus) :
    exec i (s.setRunStatus r) = .next (t.setRunStatus (if i = .brk then .halted else r)) := by
  cases i with cases h
  | brk => rfl
  | _ => rfl

/-- A call of `run()` overwrites the status the last one left (10_state.md R34). -/
theorem run_setRunStatus (n : Nat) (s : State) (r : RunStatus) : run n (s.setRunStatus r) = run n s :=
  rfl

/-! ### The obligations -/

/-- Settles O33: the second step does what the first does (`step_setStatus`), and each status bit after it
depends on that bit alone. -/
theorem onlyTheCarryBitOfStatusIsRead : Obligations.OnlyTheCarryBitOfStatusIsRead := by
  intro s t s' hst hc h
  obtain ⟨f, hf, hstep⟩ := step_setStatus h
  have hs' : s'.status = f s.status := by
    have h' : step s = .next (s'.setStatus (f s.status)) := hstep s.status rfl
    rw [h] at h'
    exact congrArg State.status (Host.Outcome.next.inj h')
  refine ⟨s'.setStatus (f t.status), ?_, ⟨rfl, rfl, rfl, rfl, rfl, rfl⟩, ?_, fun k hk heq => hk ?_⟩
  · rw [eq_setStatus_of_sameButStatus hst]
    exact hstep t.status hc
  · rw [hs']
    exact hf _ _ 0 hc
  · rw [hs']
    exact hf _ _ k heq

/-- Settles O25, by induction on the two lists. -/
theorem canonicalMemoriesThatReadAlikeAreEqual : Obligations.CanonicalMemoriesThatReadAlikeAreEqual := by
  intro s t hs ht heq
  refine Memory.eq_of_read_eq hs ht fun k hk => ?_
  have h := heq (BitVec.ofNat 16 k)
  rwa [State.memRead, State.memRead, BitVec.toNat_ofNat, Nat.mod_eq_of_lt hk] at h

/-- Settles O29, by the effect of each instruction and each host operation on Y. -/
theorem onlyTheHostChangesY : Obligations.OnlyTheHostChangesY := by
  refine ⟨fun s t => step_y_eq, fun n s r t => ?_, fun op s t h hne => ?_⟩
  · exact run_returned_keeps (f := State.y) (fun _ _ => step_y_eq) fun _ _ => rfl
  · obtain ⟨rfl, rfl⟩ | ⟨v, rfl, rfl⟩ | ⟨v, -, rfl⟩ | ⟨hy, -⟩ := applyHostOp_y_status_cases h
    · exact .inl ⟨rfl, rfl⟩
    · exact .inr rfl
    · exact absurd rfl hne
    · exact absurd hy hne

/-- Settles O30, by the effect of each instruction and each host operation on status. -/
theorem reservedStatusBitsAreKept : Obligations.ReservedStatusBitsAreKept := by
  intro k hk hk'
  refine ⟨fun s t => step_reservedBit_eq hk hk', fun n s r t => ?_, BitVec.getLsbD_zero,
    fun _ => BitVec.getLsbD_zero, fun op s t h hne => ?_⟩
  · exact run_returned_keeps (f := fun u => u.status.getLsbD k)
      (fun _ _ => step_reservedBit_eq hk hk') fun _ _ => rfl
  · obtain ⟨rfl, -⟩ | ⟨v, -, rfl⟩ | ⟨v, rfl, rfl⟩ | ⟨-, hst⟩ := applyHostOp_y_status_cases h
    · exact .inl rfl
    · exact absurd rfl hne
    · exact .inr rfl
    · exact absurd (by rw [hst]) hne

/-- Settles O31, by the three things an instruction can do to status. -/
theorem onlyAdcAndSbcChangeCarryAndOverflow : Obligations.OnlyAdcAndSbcChangeCarryAndOverflow :=
  fun _ _ _ h hadc hsbc => (exec_cases h).carry_overflow_eq hadc hsbc

/-- Settles O32: the instruction is the one fetched, and its effect is read field by field. -/
theorem stateChangesOnlyByTheInstructionsNamed : Obligations.StateChangesOnlyByTheInstructionsNamed := by
  intro s t hrun h
  obtain ⟨hs, -⟩ | ⟨-, i, hi, he⟩ := step_cases h
  · simp [engineStopped_of_running hrun] at hs
  have heff := exec_cases he
  refine ⟨i, bytesAt_of_fetchInstr hi, fun k hk => ?_, heff.a_eq_or.resolve_left,
    heff.x_eq_or.resolve_left, fun hst => ?_, fun hr => ?_⟩
  · rw [← storeAddress_beginRun]
    exact (heff.memRead_eq_or k).resolve_left hk
  · obtain ⟨-, hsame⟩ | ⟨hi | hi | hi, -⟩ | ⟨hi | hi, -⟩ := heff.status_cases
    · exact absurd hsame hst
    all_goals simp [hi]
  · obtain ⟨rfl, hhalt⟩ := heff.runStatus_eq_or.resolve_left hr
    exact ⟨rfl, hhalt⟩

/-- Settles O34, by what `exec` and `run` make of a run status put in beforehand. -/
theorem runStatusDoesNotChangeHowInstructionsCompute :
    Obligations.RunStatusDoesNotChangeHowInstructionsCompute :=
  ⟨fun _ _ _ r h => exec_setRunStatus h r, run_setRunStatus⟩

/-- Settles O36: the vector is read as a word, and a load leaves 0x8000 in it. -/
theorem resetLeavesZeroRegistersAndTheVector : Obligations.ResetLeavesZeroRegistersAndTheVector := by
  refine ⟨fun s => ⟨rfl, rfl, rfl, rfl, toNat_joinBytes _ _, fun _ => rfl, rfl⟩, fun p s t h => ?_, rfl,
    reset_eq_hostReset_new⟩
  obtain ⟨-, rfl⟩ := load_cases h
  exact State.memRead16_memWrite16_same _ _ _

/-- Settles O26. -/
theorem resetStateMeetsTheInvariant : Obligations.ResetStateMeetsTheInvariant := reset_mem_wf

/-- Settles O35. -/
theorem newStateIsZeroed : Obligations.NewStateIsZeroed :=
  ⟨rfl, rfl, rfl, rfl, rfl, fun _ => rfl, rfl⟩

end Sys2Proof.Machine

/-! SUPPORT. Proofs of the statements about memory (20_memory.md): lemmas first, in the order of the
definitions they speak of, then the obligations. -/

namespace Sys2Proof.Machine

open Sys2Proof.Claims

/-! ### The bytes of a word, in the spec's arithmetic -/

theorem toNat_lo8 (w : Addr) : (lo8 w).toNat = w.toNat % 256 := by
  simp [lo8]

theorem toNat_hi8 (w : Addr) : (hi8 w).toNat = w.toNat / 256 := by
  have := w.isLt
  simp [hi8, Nat.shiftRight_eq_div_pow]
  omega

/-- The spec's mem[n] at an address. -/
theorem byteAt_toNat (s : State) (a : Addr) : byteAt s a.toNat = s.memRead a := by
  rw [byteAt, BitVec.ofNat_toNat, BitVec.setWidth_eq]

/-- The spec's mem[(n + 1) mod 65536] at an address: the byte after it, with the wrap of R43. -/
theorem byteAt_toNat_succ (s : State) (a : Addr) :
    byteAt s ((a.toNat + 1) % 65536) = s.memRead (a + 1) :=
  byteAt_toNat s (a + 1)

/-- A byte read after a word write (R44). -/
theorem State.memRead_memWrite16 (s : State) (a k v : Addr) :
    (s.memWrite16 a v).memRead k =
      if k = a + 1 then hi8 v else if k = a then lo8 v else s.memRead k := by
  simp only [State.memWrite16, State.memRead_memWrite]

/-! ### What an instruction does to memory -/

section
variable {i : Instr} {s t : State} {ea : Addr}

/-- An instruction that stores leaves what every STA leaves (43_load_store.md R150). -/
theorem Effect.eq_storeAccumulator (h : Effect i s t) (hs : storeAddress i s = some ea) :
    t = storeAccumulator i.mode ea s := by
  cases h with
  | store _ ea' hs' =>
    obtain rfl : ea' = ea := Option.some.inj (hs'.symm.trans hs)
    rfl
  | load _ hs' => simp [hs'] at hs
  | tax h | inx h | adc _ h | sbc _ h | brk h => subst h; cases hs

theorem exec_of_storeAddress (hs : storeAddress i s = some ea) :
    exec i s = .next (storeAccumulator i.mode ea s) := by
  obtain ⟨t, ht, he⟩ := exec_effect i s
  rw [ht, he.eq_storeAccumulator hs]

/-- Only an STA writes memory, and its write keeps the canonical form. -/
theorem Effect.inv (h : Effect i s t) (hinv : s.Inv) : t.Inv := by
  cases h with
  | store _ ea => exact State.wf_memWrite ea s.a hinv
  | load | tax | inx | adc | sbc | brk => exact hinv

end

/-! ### The step of an instruction whose bytes stand at PC -/

/-- The decoder reads an instruction back from its own bytes (30_encoding.md R60, R66). -/
theorem decode_encode_append (i : Instr) (rest : List Byte) : decode (encode i ++ rest) = .ok (i, rest) := by
  cases i with
  | staAbs addr | staAbsY addr | staAbsX addr | ldaAbs addr | ldaAbsY addr | ldaAbsX addr =>
    rw [← joinBytes_hi8_lo8 addr]
    simp only [encode, lo8_joinBytes, hi8_joinBytes]
    rfl
  | _ => rfl

theorem length_encode_le (i : Instr) : (encode i).length ≤ 3 := by
  cases i <;> simp [encode]

/-- Of two lists of bytes that stand at one address, the shorter begins the longer. -/
theorem isPrefix_of_bytesAt {xs ys : List Byte} {a : Addr} {s : State} (hx : BytesAt a xs s)
    (hy : BytesAt a ys s) (hle : xs.length ≤ ys.length) : xs <+: ys := by
  induction xs generalizing a ys with
  | nil => exact List.nil_prefix
  | cons x xs ih =>
    cases ys with
    | nil => simp at hle
    | cons y ys =>
      obtain ⟨hx, hxs⟩ := hx
      obtain ⟨hy, hys⟩ := hy
      exact List.cons_prefix_cons.mpr ⟨hx.symm.trans hy, ih hxs hys (Nat.le_of_succ_le_succ hle)⟩

/-- An instruction whose bytes stand at PC is the one fetched. -/
theorem fetchInstr_of_bytesAt {s : State} {i : Instr} (h : BytesAt s.pc (encode i) s) :
    s.fetchInstr = .ok i := by
  obtain ⟨rest, hrest⟩ := isPrefix_of_bytesAt h (bytesAt_fetchBytes s) (length_encode_le i)
  exact fetchInstr_of_decode (hrest ▸ decode_encode_append i rest)

/-- While run() executes, a step executes the instruction whose bytes stand at PC. -/
theorem step_of_bytesAt {s : State} {i : Instr} (hr : s.runStatus = .running)
    (h : BytesAt s.pc (encode i) s) : step s = exec i s.beginRun :=
  step_of_fetchInstr (engineStopped_of_running hr) (fetchInstr_of_bytesAt h)

/-! ### The obligations -/

/-- Settles O27, by the effect of each instruction on memory. -/
theorem stepKeepsTheInvariant : Obligations.StepKeepsTheInvariant := by
  intro s t hs h
  exact step_induction (R := fun s t => s.Inv → t.Inv) (fun _ => id)
    (fun _ _ _ he hinv => he.inv hinv) h hs

/-- Settles O14: the step is the STA at PC, and each fetched byte is a read after its one write. -/
theorem storeIsSeenByTheNextFetch : Obligations.StoreIsSeenByTheNextFetch := by
  intro s t i ea hr hbytes hea h
  rw [← storeAddress_beginRun] at hea
  rw [step_of_bytesAt hr hbytes, exec_of_storeAddress hea] at h
  cases h
  simp only [State.fetchBytes, storeAccumulator_memRead, State.beginRun_a, State.beginRun_memRead,
    List.map_cons, List.map_nil]

/-- Settles O24, by the read of each byte after a word write. -/
theorem wordAccessIsLittleEndianAndWraps : Obligations.WordAccessIsLittleEndianAndWraps := by
  intro s addr v
  refine ⟨?_, State.memRead16_memWrite16_same s addr v, ?_, ?_, fun k hlo hhi => ?_, rfl⟩
  · rw [State.memRead16, toNat_joinBytes, byteAt_toNat_succ, byteAt_toNat, wordOf]
  · have hne : addr ≠ addr + 1 := by simp
    rw [State.memRead_memWrite16, if_neg hne, if_pos rfl, toNat_lo8]
  · rw [State.memRead_memWrite16, if_pos rfl, toNat_hi8]
  · rw [State.memRead_memWrite16, if_neg hhi, if_neg hlo]

/-- Settles O48: with PC put back, the state after the STA is the one after the host's write. -/
theorem hostWriteIsSeenLikeAnEarlierSta : Obligations.HostWriteIsSeenLikeAnEarlierSta := by
  intro i ea s hr hea
  exact ⟨s.memWrite ea s.a, storeAccumulator i.mode ea s, betweenRuns_of_stopped hr _,
    exec_of_storeAddress hea, fun _ => rfl, fun _ => betweenRuns_of_stopped hr _⟩

/-- Settles O23, by a read after a write. -/
theorem memWriteChangesOneByte : Obligations.MemWriteChangesOneByte := by
  intro s addr v
  refine ⟨?_, fun k hk => ?_, rfl, rfl, rfl, rfl, rfl⟩
  · rw [State.memRead_memWrite, if_pos rfl]
  · rw [State.memRead_memWrite, if_neg hk]

end Sys2Proof.Machine

/-! SUPPORT. Proofs of the statements about the encoding (30_encoding.md): lemmas first, in the order of the
definitions they speak of, then the obligations. -/

namespace Sys2Proof.Machine

open Sys2Proof.Claims

/-! ### Opcode bytes of no row -/

/-- The table's opcode bytes are those of the opcode map (R63). -/
theorem map_opcode_dispatchTable : dispatchTable.map Row.opcode = opcodesInScope := rfl

theorem dispatch_eq_none_of_notMem {op : Byte} (h : op ∉ opcodesInScope) : dispatch op = none := by
  rw [← map_opcode_dispatchTable] at h
  refine List.find?_eq_none.mpr fun row hrow hop => h ?_
  exact List.mem_map.mpr ⟨row, hrow, eq_of_beq hop⟩

/-- The first byte alone decides that bytes are no instruction (R65, R66). -/
theorem decode_of_notMem {op : Byte} (h : op ∉ opcodesInScope) (rest : List Byte) :
    decode (op :: rest) = .error (.unimplementedOpcode op) := by
  simp only [decode, dispatch_eq_none_of_notMem h]

/-! ### The obligations -/

/-- Settles O3, by the decoder's two directions: what decodes is the encoding, and the encoding decodes. -/
theorem decodeGivesInstrIffBytesAreItsEncoding : Obligations.DecodeGivesInstrIffBytesAreItsEncoding := by
  intro bytes i rest
  constructor
  · exact eq_encode_append_of_decode
  · rintro rfl
    exact decode_encode_append i rest

/-- Settles O2: a row is the decoder's value at its opcode byte, and every other byte is in no row. -/
theorem opcodeMapHasExactlyTheTwentyRows : Obligations.OpcodeMapHasExactlyTheTwentyRows := by
  constructor
  · intro n h rest
    refine ⟨?_, ?_, ?_, ?_, ?_, ?_, ?_, ?_, ?_, ?_, ?_, ?_, ?_, ?_, ?_, ?_, ?_, ?_, ?_, ?_,
      toNat_joinBytes h n⟩ <;> exact ⟨rfl, rfl⟩
  · intro op rest hop
    exact decode_of_notMem hop rest

/-- Settles O1: seven of the strings are encodings followed by a rest, and 0x89 is in no row. -/
theorem sampleBytesDecodeAsTheOpcodeMapSays : Obligations.SampleBytesDecodeAsTheOpcodeMapSays :=
  ⟨decode_encode_append .brk [], decode_encode_append (.adcImm 0x10) [],
    decode_encode_append (.staAbsX 0xFFFE) [], decode_encode_append (.ldaIndY 0x20) [0x00],
    decode_encode_append .tax [0xE8], decode_encode_append .inx [],
    decode_encode_append (.sbcImm 0x02) [], decode_of_notMem (by decide) [0x10]⟩

end Sys2Proof.Machine

/-! SUPPORT. Proofs of the statements about the addressing modes (40_addressing.md): lemmas first, in the
order of the definitions they speak of, then the obligations. -/

namespace Sys2Proof.Machine

open Sys2Proof.Claims

/-! ### Modes no instruction has -/

/-- ZeroPage_Y is the mode of no pair in scope (30_encoding.md R64). -/
theorem mode_ne_zeroPageY_of_wellFormed {e : Entry} (h : e.wellFormed = true) : e.mode ≠ .zeroPageY := by
  obtain ⟨handler, mode⟩ := e
  rintro rfl
  cases handler <;> cases h

/-! ### The bytes an address is made of, in the spec's arithmetic -/

/-- The spec's mem[n] at an address of the zero page. -/
theorem byteAt_toNat_zeroPage (s : State) (p : Byte) : byteAt s p.toNat = s.memRead (zext16 p) := by
  rw [← toNat_zext16, byteAt_toNat]

/-- The spec's mem[(n + 1) mod 256]: the byte after one of the zero page, which stays within it. -/
theorem byteAt_toNat_zeroPage_succ (s : State) (p : Byte) :
    byteAt s ((p.toNat + 1) % 256) = s.memRead (zext16 (p + 1)) :=
  byteAt_toNat_zeroPage s (p + 1)

/-- A word read as a number (R43). -/
theorem toNat_memRead16 (s : State) (a : Addr) :
    (s.memRead16 a).toNat = wordOf (byteAt s ((a.toNat + 1) % 65536)) (byteAt s a.toNat) := by
  obtain ⟨h, -⟩ := wordAccessIsLittleEndianAndWraps s a 0
  exact h

theorem toNat_zeroPagePointer (p : Byte) (s : State) :
    (zeroPagePointer p s).toNat = pointerAt p.toNat s := by
  rw [zeroPagePointer, toNat_joinBytes, pointerAt, wordOf, byteAt_toNat_zeroPage_succ,
    byteAt_toNat_zeroPage]

/-! ### The effective addresses as numbers (R82 to R89) -/

section
variable (nn : Byte) (w : Addr) (s : State)

theorem toNat_add_zext16 (b : Byte) : (w + zext16 b).toNat = (w.toNat + b.toNat) % 65536 := by
  rw [BitVec.toNat_add, toNat_zext16]

theorem toNat_eaZeroPage : (eaZeroPage nn).toNat = nn.toNat :=
  toNat_zext16 nn

theorem toNat_eaZeroPageX : (eaZeroPageX nn s).toNat = zeroPageXAt nn s :=
  toNat_zext16 (nn + s.x)

theorem toNat_eaZeroPageY : (eaZeroPageY nn s).toNat = (nn.toNat + s.y.toNat) % 256 :=
  toNat_zext16 (nn + s.y)

theorem toNat_eaAbsoluteX : (eaAbsoluteX w s).toNat = absoluteXAt w.toNat s :=
  toNat_add_zext16 w s.x

theorem toNat_eaAbsoluteY : (eaAbsoluteY w s).toNat = absoluteYAt w.toNat s :=
  toNat_add_zext16 w s.y

theorem toNat_eaIndirectX : (eaIndirectX nn s).toNat = indirectXAt nn s :=
  toNat_zeroPagePointer (nn + s.x) s

theorem toNat_eaIndirectY : (eaIndirectY nn s).toNat = indirectYAt nn s := by
  rw [eaIndirectY, toNat_add_zext16, toNat_zeroPagePointer, indirectYAt]

end

/-! ### The resolver -/

/-- An address the resolver gives is the one the spec computes as a number. -/
theorem ok_eq_ok_ofNat {ea : Addr} {n : Nat} (h : ea.toNat = n) :
    (.ok ea : Except Fault Addr) = .ok (BitVec.ofNat 16 n) := by
  rw [← h, BitVec.ofNat_toNat, BitVec.setWidth_eq]

/-- The resolver errs for NoneAddressing alone (R90). -/
theorem resolve_eq_error_iff {m : Mode} {opAddr : Addr} {s : State} {f : Fault} :
    resolve m opAddr s = .error f ↔
      m = .noneAddressing ∧ f = .invalidAddressingMode (s.memRead opAddr) opAddr := by
  cases m with
  | noneAddressing => simp [resolve, eq_comm]
  | _ => simp [resolve]

/-! ### The obligations -/

/-- Settles O8: with the operand byte read where the resolver reads it, each address is its mode's effective
address as a number. -/
theorem resolverWrapsZeroPageAndPointerSums : Obligations.ResolverWrapsZeroPageAndPointerSums := by
  intro opAddr s pc b
  have hb : b = s.memRead (opAddr + 1) := byteAt_toNat_succ s opAddr
  rw [hb]
  exact ⟨ok_eq_ok_ofNat (BitVec.toNat_add opAddr 1), ok_eq_ok_ofNat (toNat_eaZeroPage _),
    ok_eq_ok_ofNat (toNat_eaZeroPageX _ s), ok_eq_ok_ofNat (toNat_eaIndirectX _ s),
    ok_eq_ok_ofNat (toNat_eaIndirectY _ s)⟩

/-- Settles O9: the operand word is the word read at pc, each address is its mode's effective address as a
number, and NoneAddressing is the one mode that errs. -/
theorem resolverGivesAbsoluteAddressesModulo65536 :
    Obligations.ResolverGivesAbsoluteAddressesModulo65536 := by
  refine ⟨?_, fun _ _ _ _ => resolve_eq_error_iff,
    fun i => mode_ne_zeroPageY_of_wellFormed (instr_wellFormed i)⟩
  intro opAddr s pc w
  have hb : byteAt s pc = s.memRead (opAddr + 1) := byteAt_toNat_succ s opAddr
  have hw : (s.memRead16 (opAddr + 1)).toNat = w := toNat_memRead16 s (opAddr + 1)
  rw [← hw, hb]
  exact ⟨ok_eq_ok_ofNat rfl, ok_eq_ok_ofNat (toNat_eaAbsoluteX _ s),
    ok_eq_ok_ofNat (toNat_eaAbsoluteY _ s), ok_eq_ok_ofNat (toNat_eaZeroPageY _ s)⟩

end Sys2Proof.Machine

/-! SUPPORT. Proofs of the statements about the flag updater (41_flag_updater.md): lemmas first, in the order of
the definitions they speak of, then the obligations. -/

namespace Sys2Proof.Machine

open Sys2Proof.Claims

/-! ### Zero and negative (R100) -/

theorem zeroNegativeOf_zeroNegative (v st : Byte) : ZeroNegativeOf v (zeroNegative v st) := by
  constructor
  · have hz : (v == 0) = decide (v.toNat = 0) := by simp [BitVec.toNat_eq, beq_eq_decide]
    rw [getLsbD_zeroNegative, if_neg (by decide), if_pos rfl, hz]
  · rw [getLsbD_zeroNegative, if_pos rfl, BitVec.msb_eq_getLsbD_last]

section
variable {i : Instr} {s t : State}

/-- The instructions that write A set Z and N from the A they leave. -/
theorem Effect.zeroNegativeOf_a (h : Effect i s t)
    (hi : i.handler = .lda ∨ i.handler = .adc ∨ i.handler = .sbc) : ZeroNegativeOf t.a t.status := by
  cases h with
  | load | adc | sbc => exact zeroNegativeOf_zeroNegative _ _
  | store h => simp [h] at hi
  | tax h | inx h | brk h => subst h; simp [Instr.handler, Instr.entry] at hi

/-- The instructions that write X set Z and N from the X they leave. -/
theorem Effect.zeroNegativeOf_x (h : Effect i s t) (hi : i.handler = .tax ∨ i.handler = .inx) :
    ZeroNegativeOf t.x t.status := by
  cases h with
  | tax | inx => exact zeroNegativeOf_zeroNegative _ _
  | load h | store h => simp [h] at hi
  | adc _ h | sbc _ h | brk h => subst h; simp [Instr.handler, Instr.entry] at hi

end

/-! ### The sign of a byte -/

theorem getLsbD_seven_eq_decide (b : Byte) : b.getLsbD 7 = decide (128 ≤ b.toNat) :=
  (BitVec.msb_eq_getLsbD_last b).symm.trans (BitVec.msb_eq_decide b)

theorem toInt_not_byte (b : Byte) : (~~~b).toInt = -b.toInt - 1 := by
  have hb := b.isLt
  rw [BitVec.toInt_eq_toNat_cond, BitVec.toInt_eq_toNat_cond, BitVec.toNat_not]
  omega

section
variable (a m : Byte) (c : Bool)

/-! ### Addition with carry (R102) -/

theorem toNat_addWithCarry_result :
    (addWithCarry a m c).result.toNat = (a.toNat + m.toNat + c.toNat) % 256 :=
  BitVec.toNat_ofNat _ _

theorem addWithCarry_carry_iff :
    (addWithCarry a m c).carry = true ↔ 255 < a.toNat + m.toNat + c.toNat :=
  decide_eq_true_iff

theorem addWithCarry_overflow_iff :
    (addWithCarry a m c).overflow = true ↔
      a.getLsbD 7 = m.getLsbD 7 ∧ (addWithCarry a m c).result.getLsbD 7 ≠ a.getLsbD 7 := by
  simp [addWithCarry, BitVec.msb_eq_getLsbD_last]

theorem addWithCarry_overflow_eq_getLsbD :
    (addWithCarry a m c).overflow =
      ((a ^^^ (addWithCarry a m c).result) &&& (m ^^^ (addWithCarry a m c).result)).getLsbD 7 := by
  rw [Bool.eq_iff_iff, addWithCarry_overflow_iff, BitVec.getLsbD_and, BitVec.getLsbD_xor,
    BitVec.getLsbD_xor]
  cases a.getLsbD 7 <;> cases m.getLsbD 7 <;> simp

/-- Signs, result and signed values are all given by the unsigned values, on which both sides agree. -/
theorem addWithCarry_overflow_iff_toInt :
    (addWithCarry a m c).overflow = true ↔
      a.toInt + m.toInt + c.toNat < -128 ∨ 127 < a.toInt + m.toInt + c.toNat := by
  have ha := a.isLt
  have hm := m.isLt
  have hc := c.toNat_le
  simp only [addWithCarry_overflow_iff, getLsbD_seven_eq_decide, toNat_addWithCarry_result,
    BitVec.toInt_eq_toNat_cond, ne_eq, decide_eq_decide]
  omega

/-! ### Subtraction with borrow (R103) -/

theorem toNat_subWithBorrow_result :
    ((subWithBorrow a m c).result.toNat : Int) = ((a.toNat : Int) - m.toNat - (1 - c.toNat)) % 256 := by
  rw [subWithBorrow, BitVec.toNat_ofInt]
  exact Int.toNat_of_nonneg (Int.emod_nonneg _ (by decide))

theorem subWithBorrow_carry_iff :
    (subWithBorrow a m c).carry = true ↔ (0 : Int) ≤ (a.toNat : Int) - m.toNat - (1 - c.toNat) :=
  decide_eq_true_iff

theorem subWithBorrow_overflow_iff :
    (subWithBorrow a m c).overflow = true ↔
      a.getLsbD 7 ≠ m.getLsbD 7 ∧ (subWithBorrow a m c).result.getLsbD 7 ≠ a.getLsbD 7 := by
  simp [subWithBorrow, BitVec.msb_eq_getLsbD_last]

theorem subWithBorrow_overflow_eq_getLsbD :
    (subWithBorrow a m c).overflow =
      ((a ^^^ m) &&& (a ^^^ (subWithBorrow a m c).result)).getLsbD 7 := by
  rw [Bool.eq_iff_iff, subWithBorrow_overflow_iff, BitVec.getLsbD_and, BitVec.getLsbD_xor,
    BitVec.getLsbD_xor]
  cases a.getLsbD 7 <;> cases m.getLsbD 7 <;> simp

/-- The exact difference is the sum with the complement, less 256; so the two agree modulo 256, no borrow is
a carry, and differing signs of `a` and `m` are equal signs of `a` and the complement. -/
theorem subWithBorrow_eq_addWithCarry_not : subWithBorrow a m c = addWithCarry a (~~~m) c := by
  have hdiff : (a.toNat : Int) - m.toNat - (1 - c.toNat) =
      ((a.toNat + (~~~m).toNat + c.toNat : Nat) : Int) - 256 := by
    have hm := m.isLt
    rw [BitVec.toNat_not]
    omega
  have hresult : ∀ sum : Nat, BitVec.ofInt 8 (sum - 256) = BitVec.ofNat 8 sum := fun sum => by
    apply BitVec.eq_of_toNat_eq
    rw [BitVec.toNat_ofInt, BitVec.toNat_ofNat]
    omega
  have hcarry : ∀ sum : Nat, decide ((0 : Int) ≤ sum - 256) = decide (255 < sum) := fun sum => by
    rw [decide_eq_decide]
    omega
  have hsign : (a.msb != m.msb) = (a.msb == (~~~m).msb) := by
    rw [BitVec.msb_not]
    cases a.msb <;> cases m.msb <;> rfl
  simp only [subWithBorrow, addWithCarry, hdiff, hresult, hcarry, hsign]

theorem subWithBorrow_overflow_iff_toInt :
    (subWithBorrow a m c).overflow = true ↔
      a.toInt - m.toInt - (1 - c.toNat) < -128 ∨ 127 < a.toInt - m.toInt - (1 - c.toNat) := by
  have hsum : a.toInt - m.toInt - (1 - c.toNat) = a.toInt + (~~~m).toInt + c.toNat := by
    rw [toInt_not_byte]
    ring
  rw [hsum, subWithBorrow_eq_addWithCarry_not, addWithCarry_overflow_iff_toInt]

end

/-! ### The obligations -/

/-- Settles O20, by the bits of `zeroNegative` and by the effect of each instruction on A, X and status. -/
theorem zeroAndNegativeFollowTheValueWritten : Obligations.ZeroAndNegativeFollowTheValueWritten := by
  refine ⟨fun v s => ⟨zeroNegativeOf_zeroNegative v s.status, fun k h1 h7 => ?_⟩, fun i s t h => ?_⟩
  · rw [State.applyZeroNegative_status, getLsbD_zeroNegative, if_neg h7, if_neg h1]
  · exact ⟨(exec_cases h).zeroNegativeOf_a, (exec_cases h).zeroNegativeOf_x⟩

/-- Settles O21, output by output. -/
theorem addWithCarryIsExact : Obligations.AddWithCarryIsExact := fun a m c =>
  ⟨toNat_addWithCarry_result a m c, addWithCarry_carry_iff a m c, addWithCarry_overflow_iff a m c,
    addWithCarry_overflow_eq_getLsbD a m c, addWithCarry_overflow_iff_toInt a m c⟩

/-- Settles O22, output by output; the signed reading is that of the addition of the complement. -/
theorem subWithBorrowIsExact : Obligations.SubWithBorrowIsExact := fun a m c =>
  ⟨toNat_subWithBorrow_result a m c, subWithBorrow_carry_iff a m c, subWithBorrow_overflow_iff a m c,
    subWithBorrow_overflow_eq_getLsbD a m c, subWithBorrow_eq_addWithCarry_not a m c,
    subWithBorrow_overflow_iff_toInt a m c⟩

end Sys2Proof.Machine

/-! SUPPORT. Proofs of the statements about the execution engine (42_execution_engine.md): lemmas first, in the
order of the definitions they speak of, then the obligations. -/

namespace Sys2Proof.Machine

open Sys2Proof.Claims

/-! ### Memory after a list of bytes is written -/

/-- A byte read after bytes are written at `a` and on: the byte that stands as far into the list as the address
is from `a`. With at most 65536 bytes none is written twice. -/
theorem State.memRead_writeBytes (s : State) (a k : Addr) (bytes : List Byte) (hlen : bytes.length ≤ 65536) :
    (s.writeBytes a bytes).memRead k = bytes.getD (k - a).toNat (s.memRead k) := by
  induction bytes generalizing s a with
  | nil => rfl
  | cons b bytes ih =>
    rw [List.length_cons] at hlen
    rw [State.writeBytes, ih _ _ (by omega), State.memRead_memWrite]
    by_cases hk : k = a
    · subst hk
      have hdist : (k - (k + 1)).toNat = 65535 := by bv_omega
      rw [if_pos rfl, hdist, List.getD_eq_default _ _ (by omega), BitVec.sub_self]
      rfl
    · have hdist : (k - a).toNat = (k - (a + 1)).toNat + 1 := by bv_omega
      rw [if_neg hk, hdist, List.getD_cons_succ]

/-- A state whose memory holds one byte everywhere. -/
def State.filledWith (b : Byte) : State := State.new.writeBytes 0 (List.replicate 65536 b)

theorem State.filledWith_inv (b : Byte) : (State.filledWith b).Inv :=
  State.wf_writeBytes 0 _ rfl

theorem State.filledWith_memRead (b : Byte) (k : Addr) : (State.filledWith b).memRead k = b := by
  have hk : (k - 0).toNat < 65536 := BitVec.isLt _
  rw [State.filledWith, State.memRead_writeBytes _ _ _ _ List.length_replicate.le,
    List.getD_replicate _ hk]

/-! ### PC after an instruction -/

section
variable {i : Instr} {s t : State}

theorem Effect.pc_eq (h : Effect i s t) : t.pc = s.pc + 1 + BitVec.ofNat 16 i.mode.width := by
  cases h with
  | load | store => rfl
  | tax h | inx h | adc _ h | sbc _ h | brk h => subst h; rfl

/-- R125 in the spec's arithmetic: the opcode byte and the operand of the mode are passed. -/
theorem Effect.pcAdvanced (h : Effect i s t) : PcAdvanced (1 + i.mode.width) s t := by
  rw [PcAdvanced, h.pc_eq]
  bv_omega

/-! ### What a fetch and a step can do while run() executes -/

/-- Three bytes are no instruction only when the first is no opcode: no operand is longer than two. -/
theorem notMem_of_decode_error {op b c : Byte} {e : DecodeError} (h : decode [op, b, c] = .error e) :
    op ∉ opcodesInScope := by
  intro hop
  rw [← map_opcode_dispatchTable] at hop
  obtain ⟨row, hrow, rfl⟩ := List.mem_map.mp hop
  rw [decode] at h
  split at h
  · next hnone => exact List.find?_eq_none.mp hnone row hrow BEq.rfl
  · next row' _ => cases hf : row'.former <;> rw [hf] at h <;> cases h

/-- The one fault of a fetch (60_exceptions.md R201). -/
theorem fetchInstr_error {f : Fault} (h : s.fetchInstr = .error f) :
    f = .unimplementedOpcode (s.memRead s.pc) s.pc ∧ s.memRead s.pc ∉ opcodesInScope := by
  rw [State.fetchInstr] at h
  split at h
  · cases h
  · next hd => cases h; exact ⟨rfl, notMem_of_decode_error hd⟩

theorem engineStopped_eq_false (h : s.runStatus = .idle ∨ s.runStatus = .running) :
    s.engineStopped = false := by
  obtain h | h := h <;> simp only [State.engineStopped, h]

/-- A step that has not found run() ended does not read the run status. -/
theorem step_beginRun (h : s.engineStopped = false) : step s.beginRun = step s := by
  have hrun : s.beginRun.engineStopped = false := rfl
  have hfetch : s.beginRun.fetchInstr = s.fetchInstr := fetchInstr_congr rfl rfl
  simp only [step, h, hrun, hfetch]
  rfl

/-- A step while run() executes leaves it executing, or ran a BRK, whose byte then stands just before PC. -/
theorem step_of_running (hr : s.runStatus = .running) (h : step s = .next t) :
    t.runStatus = .running ∨ t.runStatus = .halted ∧ t.memRead (t.pc - 1) = 0x00 := by
  obtain ⟨hs, -⟩ | ⟨-, i, hi, he⟩ := step_cases h
  · simp [engineStopped_of_running hr] at hs
  refine (exec_cases he).runStatus_eq_or.imp id ?_
  rintro ⟨rfl, hhalt⟩
  refine ⟨hhalt, ?_⟩
  obtain ⟨hbyte, -⟩ := bytesAt_of_fetchInstr hi
  cases he
  simpa [Mode.width] using hbyte

theorem runStatus_eq_running_of_step (hr : s.runStatus = .running) (h : step s = .next t)
    (hh : t.runStatus ≠ .halted) : t.runStatus = .running :=
  (step_of_running hr h).resolve_right fun ⟨hhalt, _⟩ => hh hhalt

/-! ### The loop of run(), cut at a number of steps -/

/-- The two ways the loop of run() ends at a state `u` (R128): a BRK is executed, or the step faults. -/
inductive LastStep (u : State) : RunResult → State → Prop where
  | halt {t : State} (h : step u = .next t) (hh : t.runStatus = .halted) : LastStep u .okHalted t
  | fault {f : Fault} (h : step u = .fault f) : LastStep u (.err f) (u.stopWithFault f)

/-- At a state the loop of run() takes its last step, or goes on from the next state. -/
theorem runLoop_succ_cases (s : State) :
    (∃ r t, LastStep s r t ∧ ∀ n, runLoop (n + 1) s = .returned r t) ∨
    (∃ s', step s = .next s' ∧ s'.runStatus ≠ .halted ∧ ∀ n, runLoop (n + 1) s = runLoop n s') := by
  cases h : step s with
  | next s' =>
    by_cases hh : s'.runStatus = .halted
    · exact .inl ⟨_, _, .halt h hh, runLoop_of_halt h hh⟩
    · exact .inr ⟨s', rfl, hh, runLoop_of_next h hh⟩
  | fault f => exact .inl ⟨_, _, .fault h, runLoop_of_fault h⟩
  | refused r => exact absurd h (step_ne_refused s r)

theorem runLoop_add_of_returned {n : Nat} {r : RunResult} (h : runLoop n s = .returned r t) (m : Nat) :
    runLoop (n + m) s = .returned r t := by
  induction n generalizing s with
  | zero => cases h
  | succ n ih =>
    rw [Nat.add_right_comm]
    obtain ⟨r', t', -, hret⟩ | ⟨s', -, -, hnext⟩ := runLoop_succ_cases s
    · rw [hret] at h ⊢
      exact h
    · rw [hnext] at h ⊢
      exact ih h

/-- A run that has returned is seen the same by every longer watch (R129; log 15). -/
theorem runLoop_returned_mono {n m : Nat} {r : RunResult} (hle : n ≤ m)
    (h : runLoop n s = .returned r t) : runLoop m s = .returned r t := by
  obtain ⟨d, rfl⟩ := Nat.exists_eq_add_of_le hle
  exact runLoop_add_of_returned h d

/-- A loop that has returned was executing until a last step. -/
theorem runLoop_returned {n : Nat} {r : RunResult} (h : runLoop n s = .returned r t) :
    ∃ k < n, ∃ u, runLoop k s = .executing u ∧ LastStep u r t := by
  induction n generalizing s with
  | zero => cases h
  | succ n ih =>
    obtain ⟨r', t', hlast, hret⟩ | ⟨s', -, -, hnext⟩ := runLoop_succ_cases s
    · rw [hret] at h
      cases h
      exact ⟨0, n.succ_pos, s, rfl, hlast⟩
    · rw [hnext] at h
      obtain ⟨k, hk, u, hu, hlast⟩ := ih h
      exact ⟨k + 1, Nat.succ_lt_succ hk, u, (hnext k).trans hu, hlast⟩

/-- While it is executing, a loop that began in Running is in Running, where the iteration of `step` is. -/
theorem runLoop_executing {n : Nat} (hr : s.runStatus = .running) (h : runLoop n s = .executing t) :
    t.runStatus = .running ∧ Host.Core.run core n s = .next t := by
  induction n generalizing s with
  | zero => cases h; exact ⟨hr, rfl⟩
  | succ n ih =>
    obtain ⟨r', t', -, hret⟩ | ⟨s', hs, hh, hnext⟩ := runLoop_succ_cases s
    · rw [hret] at h
      cases h
    · rw [hnext] at h
      rw [core_run_of_next hs]
      exact ih (runStatus_eq_running_of_step hr hs hh) h

/-- What the last step leaves: Halted after a BRK byte, or the fault of the opcode byte at PC. -/
theorem LastStep.result {r : RunResult} (h : LastStep s r t) (hr : s.runStatus = .running) :
    (r = .okHalted ∧ t.runStatus = .halted ∧ t.memRead (t.pc - 1) = 0x00) ∨
    (∃ f, r = .err f ∧ t.runStatus = .faulted f ∧ f = .unimplementedOpcode (t.memRead t.pc) t.pc ∧
      t.memRead t.pc ∉ opcodesInScope) := by
  cases h with
  | halt h hh =>
    obtain hrun | hbrk := step_of_running hr h
    · simp [hrun] at hh
    · exact .inl ⟨rfl, hbrk⟩
  | fault h =>
    obtain ⟨-, hfetch⟩ := step_fault h
    exact .inr ⟨_, rfl, rfl, fetchInstr_error hfetch⟩

/-! ### The iteration of `step` -/

theorem core_run_add {k : Nat} (h : Host.Core.run core k s = .next t) (m : Nat) :
    Host.Core.run core (k + m) s = Host.Core.run core m t := by
  induction k generalizing s with
  | zero => cases h; rw [Nat.zero_add]
  | succ k ih =>
    rw [Nat.add_right_comm]
    cases hs : step s with
    | next s' =>
      rw [core_run_of_next hs] at h ⊢
      exact ih h
    | fault f => rw [core_run_of_fault hs] at h; cases h
    | refused r => exact absurd hs (step_ne_refused s r)

theorem core_run_of_stopped (h : s.engineStopped = true) (k : Nat) : Host.Core.run core k s = .next s := by
  induction k with
  | zero => rfl
  | succ k ih => rw [core_run_of_next (step_of_stopped h), ih]

/-- From a state whose run has not ended, the first step begins it (log 6). -/
theorem core_run_beginRun (h : s.engineStopped = false) (k : Nat) :
    Host.Core.run core (k + 1) s = Host.Core.run core (k + 1) s.beginRun := by
  have hstep : core.step s.beginRun = core.step s := step_beginRun h
  simp only [Host.Core.run, hstep]

/-- The iteration of `step` comes to the last step of a run that returns, and takes it. -/
theorem core_run_of_returned {n k : Nat} {r : RunResult} (hs : s.engineStopped = false)
    (h : run n s = .returned r t) (hk : n ≤ k) :
    ∃ u, LastStep u r t ∧ ∃ m, Host.Core.run core k s = Host.Core.run core (m + 1) u := by
  obtain ⟨j, hj, u, hu, hlast⟩ := runLoop_returned h
  obtain ⟨m, rfl⟩ := Nat.exists_eq_add_of_lt (hj.trans_le hk)
  obtain ⟨-, hcore⟩ := runLoop_executing rfl hu
  exact ⟨u, hlast, m, (core_run_beginRun hs (j + m)).trans (core_run_add hcore (m + 1))⟩

/-! ### Memory that holds only INX bytes -/

theorem add_one_add_ofNat {w : Nat} (v : BitVec w) (n : Nat) :
    v + 1 + BitVec.ofNat w n = v + BitVec.ofNat w (n + 1) := by
  rw [BitVec.add_assoc, Nat.add_comm, BitVec.ofNat_add]
  rfl

/-- Each step is an INX (44_register_ops.md R171), which leaves memory and the run status as they were. -/
theorem runLoop_of_all_inx (hr : s.runStatus = .running) (hmem : ∀ k, s.memRead k = 0xE8) (n : Nat) :
    ∃ t, runLoop n s = .executing t ∧ t.pc = s.pc + BitVec.ofNat 16 n ∧
      t.x = s.x + BitVec.ofNat 8 n := by
  induction n generalizing s with
  | zero => exact ⟨s, rfl, (BitVec.add_zero _).symm, (BitVec.add_zero _).symm⟩
  | succ n ih =>
    have hstep : step s = .next (writeIndexX (s.x + 1) s.beginRun) :=
      step_of_bytesAt (i := .inx) hr ⟨hmem s.pc, trivial⟩
    obtain ⟨t, ht, hpc, hx⟩ := ih (s := writeIndexX (s.x + 1) s.beginRun) rfl hmem
    obtain ⟨-, hx', -, -, hpc', -⟩ := writeIndexX_spec (s.x + 1) s.beginRun
    refine ⟨t, (runLoop_of_next hstep nofun n).trans ht, ?_, ?_⟩
    · rw [hpc, hpc', State.beginRun_pc, BitVec.add_zero, add_one_add_ofNat]
    · rw [hx, hx', add_one_add_ofNat]

end

/-! ### The obligations -/

/-- Settles O5: the step is the instruction at PC, and PC advances past its opcode byte and operand. -/
theorem pcAdvancesByTheWidthOfTheMode : Obligations.PcAdvancesByTheWidthOfTheMode := by
  intro s t i hr hbytes h
  rw [step_of_bytesAt hr hbytes] at h
  have hpc : PcAdvanced (1 + i.mode.width) s t := (exec_cases h).pcAdvanced
  refine ⟨fun hm => ?_, ?_, ?_⟩
  · rwa [hm] at hpc
  · rintro (hm | hm | hm | hm | hm | hm) <;> rwa [hm] at hpc
  · rintro (hm | hm | hm) <;> rwa [hm] at hpc

/-- Settles O41: the run was executing until a last step, which leaves what is stated. -/
theorem runReturnsAtBrkOrAtAnUnimplementedOpcode :
    Obligations.RunReturnsAtBrkOrAtAnUnimplementedOpcode := by
  intro n s r t h
  obtain ⟨k, -, u, hu, hlast⟩ := runLoop_returned h
  obtain ⟨hr, -⟩ := runLoop_executing rfl hu
  exact hlast.result hr

/-- Settles O42: a run watched for the larger of two bounds has the result of either. -/
theorem runHasAtMostOneResult : Obligations.RunHasAtMostOneResult := by
  refine ⟨?_, fun s => ⟨?_, fun hnone n => ?_⟩⟩
  · rintro s r r' t t' ⟨n, h⟩ ⟨m, h'⟩
    have hmax := runLoop_returned_mono (Nat.le_max_left n m) h
    rw [runLoop_returned_mono (Nat.le_max_right n m) h'] at hmax
    cases hmax
    exact ⟨rfl, rfl⟩
  · rintro hforever ⟨r, t, n, h⟩
    obtain ⟨t', h'⟩ := hforever n
    rw [h] at h'
    cases h'
  · cases h : run n s with
    | executing t => exact ⟨t, rfl⟩
    | returned r t => exact absurd ⟨r, t, n, h⟩ hnone

/-- Settles O44, by the run over INX bytes and a memory filled with them. -/
theorem someRunNeverReturns : Obligations.SomeRunNeverReturns := by
  have hall : ∀ s : State, (∀ k, s.memRead k = 0xE8) → ∀ n, ∃ t, run n s = .executing t ∧
      t.pc = s.pc + BitVec.ofNat 16 n ∧ t.x = s.x + BitVec.ofNat 8 n := fun s hmem =>
    runLoop_of_all_inx (s := s.beginRun) rfl hmem
  refine ⟨hall, State.filledWith 0xE8, State.filledWith_inv _, State.filledWith_memRead _, fun n => ?_⟩
  obtain ⟨t, ht, -⟩ := hall _ (State.filledWith_memRead _) n
  exact ⟨t, ht⟩

/-- Settles O45: the iteration follows the executing run, takes its last step, and then stays halted. -/
theorem coreRunIsOneCallOfRun : Obligations.CoreRunIsOneCallOfRun := by
  intro n s hst
  have hs := engineStopped_eq_false hst
  refine ⟨fun t h => ?_, fun t h k hk => ?_, fun f t h k hk => ?_⟩
  · obtain ⟨-, hcore⟩ := runLoop_executing rfl h
    exact (core_run_beginRun hs n).trans hcore
  · obtain ⟨u, hlast, m, hcore⟩ := core_run_of_returned hs h hk
    cases hlast with
    | halt hstep hh =>
      have hstopped : t.engineStopped = true := by simp only [State.engineStopped, hh]
      rw [hcore, core_run_of_next hstep, core_run_of_stopped hstopped]
  · obtain ⟨u, hlast, m, hcore⟩ := core_run_of_returned hs h hk
    cases hlast with
    | fault hstep => rw [hcore, core_run_of_fault hstep]

/-- Settles O4: the bytes at PC are the bytes fetched. -/
theorem stepExecutesTheInstructionAtPc : Obligations.StepExecutesTheInstructionAtPc :=
  fun _ _ _ hst hd => step_of_fetchInstr (engineStopped_eq_false hst) (fetchInstr_of_decode hd)

end Sys2Proof.Machine

/-! SUPPORT. Proofs of the statements about load and store (43_load_store.md): lemmas first, in the order of the
definitions they speak of, then the obligations. -/

namespace Sys2Proof.Machine

open Sys2Proof.Claims

/-! ### What an LDA and an STA leave (R140, R150) -/

theorem pcAdvanced_advancePc (m : Mode) (s : State) : PcAdvanced (1 + m.width) s (s.advancePc m) := by
  rw [PcAdvanced, State.advancePc_pc]
  bv_omega

theorem loadEffect_loadAccumulator (m : Mode) (v : Byte) (s : State) :
    LoadEffect v (1 + m.width) s (loadAccumulator m v s) where
  a := rfl
  x := rfl
  y := rfl
  zeroNegative := zeroNegativeOf_zeroNegative v s.status
  otherFlags k h1 h7 := (getLsbD_zeroNegative v s.status k).trans ((if_neg h7).trans (if_neg h1))
  pc := pcAdvanced_advancePc m s
  memory _ := rfl
  runStatus := rfl

theorem storeEffect_storeAccumulator (m : Mode) (ea : Addr) (s : State) :
    StoreEffect ea (1 + m.width) s (storeAccumulator m ea s) where
  stored := (storeAccumulator_memRead m ea ea s).trans (if_pos rfl)
  otherBytes k hk := (storeAccumulator_memRead m ea k s).trans (if_neg hk)
  a := rfl
  x := rfl
  y := rfl
  status := rfl
  pc := pcAdvanced_advancePc m s
  runStatus := rfl

/-! ### The instruction whose bytes stand at PC -/

section
variable {s : State} {i : Instr}

theorem beginRun_of_running (hr : s.runStatus = .running) : s.beginRun = s :=
  State.ext_fields rfl rfl rfl rfl rfl rfl hr.symm

theorem standsFor_encode (i : Instr) : StandsFor (encode i) i := by
  refine ⟨rfl, fun s hr hbytes => ?_⟩
  rw [step_of_bytesAt hr hbytes, beginRun_of_running hr]

/-- The two operand bytes after an opcode byte are the word the resolver reads (R45, R80). -/
theorem memRead16_of_bytesAt {a w : Addr} {op : Byte} (h : BytesAt a [op, lo8 w, hi8 w] s) :
    s.memRead16 (a + 1) = w := by
  obtain ⟨-, hlo, hhi, -⟩ := h
  rw [State.memRead16, hlo, hhi, joinBytes_hi8_lo8]

/-- Every LDA loads the byte at the address the resolver gives: its operand is what stands after its opcode
byte. -/
theorem exec_of_lda (hbytes : BytesAt s.pc (encode i) s) (hi : i.handler = .lda) :
    ∃ ea, resolve i.mode s.pc s = .ok ea ∧
      exec i s = .next (loadAccumulator i.mode (s.memRead ea) s) := by
  cases i with
  | ldaImm | ldaZp | ldaZpX | ldaIndX | ldaIndY =>
    obtain ⟨-, rfl, -⟩ := hbytes
    exact ⟨_, rfl, rfl⟩
  | ldaAbs | ldaAbsX | ldaAbsY =>
    obtain rfl := memRead16_of_bytesAt hbytes
    exact ⟨_, rfl, rfl⟩
  | _ => cases hi

/-- Every STA has the address the resolver gives as its `storeAddress`. -/
theorem storeAddress_of_sta (hbytes : BytesAt s.pc (encode i) s) (hi : i.handler = .sta) :
    ∃ ea, resolve i.mode s.pc s = .ok ea ∧ storeAddress i s = some ea := by
  cases i with
  | staZp | staZpX | staIndX | staIndY =>
    obtain ⟨-, rfl, -⟩ := hbytes
    exact ⟨_, rfl, rfl⟩
  | staAbs | staAbsX | staAbsY =>
    obtain rfl := memRead16_of_bytesAt hbytes
    exact ⟨_, rfl, rfl⟩
  | _ => cases hi

/-- An opcode byte out of scope at PC faults while run() executes (60_exceptions.md R201). -/
theorem step_of_notMem (hr : s.runStatus = .running) (hop : s.memRead s.pc ∉ opcodesInScope) :
    step s = .fault (.unimplementedOpcode (s.memRead s.pc) s.pc) := by
  have hdecode : decode s.fetchBytes = .error (.unimplementedOpcode (s.memRead s.pc)) :=
    decode_of_notMem hop _
  simp [step, engineStopped_of_running hr, State.fetchInstr, hdecode]

end

/-! ### The forms of LDA and STA -/

section
variable {i : Instr} {bytes : List Byte} {ea : State → Addr} {specEa : State → Nat}

theorem length_encode (i : Instr) : (encode i).length = 1 + i.mode.width := by
  cases i <;> rfl

theorem loadForm_of_exec {value : State → Byte} (hbytes : encode i = bytes)
    (hexec : ∀ s, exec i s = .next (loadAccumulator i.mode (value s) s)) : LoadForm i bytes value := by
  subst hbytes
  refine ⟨standsFor_encode i, fun s => ⟨_, hexec s, ?_⟩⟩
  rw [length_encode]
  exact loadEffect_loadAccumulator i.mode (value s) s

/-- A form of LDA whose address function gives the address of the spec's arithmetic. -/
theorem loadForm_of_toNat (hea : ∀ s, (ea s).toNat = specEa s) (hbytes : encode i = bytes)
    (hexec : ∀ s, exec i s = .next (loadAccumulator i.mode (s.memRead (ea s)) s)) :
    LoadForm i bytes (fun s => byteAt s (specEa s)) :=
  loadForm_of_exec hbytes fun s => by rw [hexec, ← hea, byteAt_toNat]

/-- A form of STA whose address function gives the address of the spec's arithmetic. -/
theorem storeForm_of_toNat (hea : ∀ s, (ea s).toNat = specEa s) (hbytes : encode i = bytes)
    (hstore : ∀ s, storeAddress i s = some (ea s)) : StoreForm i bytes ea specEa := by
  subst hbytes
  refine ⟨standsFor_encode i, fun s => ⟨hea s, _, exec_of_storeAddress (hstore s), ?_⟩⟩
  rw [length_encode]
  exact storeEffect_storeAccumulator i.mode (ea s) s

end

/-! ### An absolute operand from its two bytes -/

section
variable (hh ll : Byte) (s : State)

/-- The bytes of an encoding whose operand word is made of two bytes. -/
theorem lo8_hi8_joinBytes (op : Byte) :
    [op, lo8 (joinBytes hh ll), hi8 (joinBytes hh ll)] = [op, ll, hh] := by
  rw [lo8_joinBytes, hi8_joinBytes]

theorem toNat_eaAbsolute_joinBytes : (eaAbsolute (joinBytes hh ll)).toNat = wordOf hh ll :=
  toNat_joinBytes hh ll

theorem toNat_eaAbsoluteX_joinBytes :
    (eaAbsoluteX (joinBytes hh ll) s).toNat = absoluteXAt (wordOf hh ll) s := by
  rw [toNat_eaAbsoluteX, toNat_joinBytes, wordOf]

theorem toNat_eaAbsoluteY_joinBytes :
    (eaAbsoluteY (joinBytes hh ll) s).toNat = absoluteYAt (wordOf hh ll) s := by
  rw [toNat_eaAbsoluteY, toNat_joinBytes, wordOf]

end

/-! ### The obligations -/

/-- Settles O10: the step is the LDA at PC, which loads the byte at the address the resolver gives. -/
theorem ldaReadsAtTheResolvedAddress : Obligations.LdaReadsAtTheResolvedAddress := by
  intro s i hr hbytes hi
  obtain ⟨ea, hea, hexec⟩ := exec_of_lda hbytes hi
  obtain ⟨-, hstep⟩ := standsFor_encode i
  exact ⟨ea, _, hea, (hstep s hr hbytes).trans hexec, loadEffect_loadAccumulator i.mode _ s⟩

/-- Settles O12: the step is the STA at PC, which stores at the address the resolver gives; 0x89 is in no row. -/
theorem staWritesAtTheResolvedAddress : Obligations.StaWritesAtTheResolvedAddress := by
  refine ⟨fun s i hr hbytes hi => ?_, fun s hr hop => ?_⟩
  · obtain ⟨ea, hea, hstore⟩ := storeAddress_of_sta hbytes hi
    obtain ⟨-, hstep⟩ := standsFor_encode i
    exact ⟨ea, _, hea, hstore, (hstep s hr hbytes).trans (exec_of_storeAddress hstore),
      storeEffect_storeAccumulator i.mode ea s⟩
  · have hnot : s.memRead s.pc ∉ opcodesInScope := by rw [hop]; decide
    rw [step_of_notMem hr hnot, hop]

/-- Settles O11: each form loads from the address function of its mode, which is the spec's arithmetic. -/
theorem ldaFormsLoadTheByteOfTheirMode : Obligations.LdaFormsLoadTheByteOfTheirMode := fun nn ll hh =>
  ⟨loadForm_of_toNat (toNat_eaIndirectX nn) rfl fun _ => rfl,
    loadForm_of_toNat (fun _ => toNat_eaZeroPage nn) rfl fun _ => rfl,
    loadForm_of_exec rfl fun _ => rfl,
    loadForm_of_toNat (fun _ => toNat_eaAbsolute_joinBytes hh ll) (lo8_hi8_joinBytes hh ll _) fun _ => rfl,
    loadForm_of_toNat (toNat_eaIndirectY nn) rfl fun _ => rfl,
    loadForm_of_toNat (toNat_eaZeroPageX nn) rfl fun _ => rfl,
    loadForm_of_toNat (toNat_eaAbsoluteY_joinBytes hh ll) (lo8_hi8_joinBytes hh ll _) fun _ => rfl,
    loadForm_of_toNat (toNat_eaAbsoluteX_joinBytes hh ll) (lo8_hi8_joinBytes hh ll _) fun _ => rfl⟩

/-- Settles O13: each form stores at the address function of its mode, which is the spec's arithmetic. -/
theorem staFormsStoreAtTheAddressOfTheirMode : Obligations.StaFormsStoreAtTheAddressOfTheirMode :=
  fun nn ll hh =>
  ⟨storeForm_of_toNat (toNat_eaIndirectX nn) rfl fun _ => rfl,
    storeForm_of_toNat (fun _ => toNat_eaZeroPage nn) rfl fun _ => rfl,
    storeForm_of_toNat (fun _ => toNat_eaAbsolute_joinBytes hh ll) (lo8_hi8_joinBytes hh ll _) fun _ => rfl,
    storeForm_of_toNat (toNat_eaIndirectY nn) rfl fun _ => rfl,
    storeForm_of_toNat (toNat_eaZeroPageX nn) rfl fun _ => rfl,
    storeForm_of_toNat (toNat_eaAbsoluteY_joinBytes hh ll) (lo8_hi8_joinBytes hh ll _) fun _ => rfl,
    storeForm_of_toNat (toNat_eaAbsoluteX_joinBytes hh ll) (lo8_hi8_joinBytes hh ll _) fun _ => rfl⟩

end Sys2Proof.Machine

/-! SUPPORT. Proofs of the statements about the register operations (44_register_ops.md): lemmas first, in the
order of the definitions they speak of, then the obligations. -/

namespace Sys2Proof.Machine

open Sys2Proof.Claims

/-! ### What TAX and INX leave (R170, R171) -/

theorem indexEffect_writeIndexX (v : Byte) (s : State) : IndexEffect v s (writeIndexX v s) where
  x := rfl
  a := rfl
  y := rfl
  zeroNegative := zeroNegativeOf_zeroNegative v s.status
  otherFlags k h1 h7 := (getLsbD_zeroNegative v s.status k).trans ((if_neg h7).trans (if_neg h1))
  pc := pcAdvanced_advancePc .noneAddressing s
  memory _ := rfl
  runStatus := rfl

/-- A byte's increment in the spec's arithmetic (R10). -/
theorem byte_add_one_eq_ofNat (b : Byte) : b + 1 = BitVec.ofNat 8 ((b.toNat + 1) % 256) := by
  bv_omega

/-! ### The obligations -/

/-- Settles O15: TAX writes A to X. -/
theorem taxCopiesAToX : Obligations.TaxCopiesAToX :=
  ⟨standsFor_encode .tax, fun s => ⟨_, rfl, indexEffect_writeIndexX s.a s⟩⟩

/-- Settles O16: INX writes X + 1 to X, which is the spec's sum modulo 256. -/
theorem inxIncrementsXModulo256 : Obligations.InxIncrementsXModulo256 := by
  refine ⟨standsFor_encode .inx, fun s => ⟨writeIndexX (s.x + 1) s, rfl, ?_⟩⟩
  rw [← byte_add_one_eq_ofNat]
  exact indexEffect_writeIndexX (s.x + 1) s

end Sys2Proof.Machine

/-! SUPPORT. Proofs of the statements about the arithmetic (45_arithmetic.md): lemmas first, in the order of the
definitions they speak of, then the obligations. -/

namespace Sys2Proof.Machine

open Sys2Proof.Claims

/-! ### What ADC and SBC leave (R180, R181) -/

/-- The effect of an ALU result from what the flag updater says of it: `p` is the condition on the operands'
signs, and the sign of the result is read from the result as a number. -/
theorem arithmeticEffect_setAluResult {r : AluResult} {s : State} {n : Nat} {c p : Prop}
    (hresult : r.result.toNat = n) (hcarry : r.carry = true ↔ c)
    (hoverflow : r.overflow = true ↔ p ∧ r.result.getLsbD 7 ≠ s.a.getLsbD 7) :
    ArithmeticEffect n c (p ∧ n.testBit 7 ≠ s.a.getLsbD 7) s
      ((s.setAluResult r).advancePc .immediate) where
  a := hresult
  x := rfl
  y := rfl
  carry := by rw [State.advancePc_status, getLsbD_setAluResult]; exact hcarry
  overflow := by rw [State.advancePc_status, getLsbD_setAluResult, ← hresult]; exact hoverflow
  zeroNegative := zeroNegativeOf_zeroNegative r.result _
  reserved k hk hk' := by
    simp (disch := omega) only [State.advancePc_status, getLsbD_setAluResult, if_neg]
  pc := pcAdvanced_advancePc .immediate (s.setAluResult r)
  memory _ := rfl
  runStatus := rfl

/-! ### The obligations -/

/-- Settles O17: ADC writes what `addWithCarry` gives, which is R102's sum, carry and overflow. -/
theorem adcAddsWithCarry : Obligations.AdcAddsWithCarry := fun nn =>
  ⟨standsFor_encode (.adcImm nn), fun _ => rfl, fun s => ⟨_, rfl,
    arithmeticEffect_setAluResult (toNat_addWithCarry_result s.a nn _) (addWithCarry_carry_iff s.a nn _)
      (addWithCarry_overflow_iff s.a nn _)⟩⟩

/-- Settles O18: SBC writes what `subWithBorrow` gives, which is R103's difference, no borrow and overflow. -/
theorem sbcSubtractsWithBorrow : Obligations.SbcSubtractsWithBorrow := by
  refine fun nn => ⟨standsFor_encode (.sbcImm nn), fun _ => rfl, fun s => ⟨_, rfl, ?_⟩⟩
  have hresult := congrArg Int.toNat (toNat_subWithBorrow_result s.a nn (s.flag .c))
  exact arithmeticEffect_setAluResult hresult (subWithBorrow_carry_iff s.a nn _)
    (subWithBorrow_overflow_iff s.a nn _)

end Sys2Proof.Machine

/-! SUPPORT. Proofs of the statements about control (46_control.md): lemmas first, in the order of the
definitions they speak of, then the obligations. -/

namespace Sys2Proof.Machine

open Sys2Proof.Claims

/-! ### What BRK leaves (R190) -/

/-- BRK's meaning: PC past its byte, which has no operand after it, then halt. -/
theorem exec_brk (s : State) : exec .brk s = .next (s.advancePc .noneAddressing).halt := rfl

section
variable {s : State}

/-- A later call of run() finds the state BRK ran in, with PC after its byte (D6; log 6). -/
theorem beginRun_halt_advancePc (hr : s.runStatus = .running) :
    (s.advancePc .noneAddressing).halt.beginRun = { s with pc := s.pc + 1 } :=
  State.ext_fields rfl rfl rfl rfl (BitVec.add_zero _) rfl hr.symm

/-- While run() executes, a step at a byte 0x00 is BRK. -/
theorem step_of_brk_byte (hr : s.runStatus = .running) (hbyte : s.memRead s.pc = 0x00) :
    step s = .next (s.advancePc .noneAddressing).halt := by
  obtain ⟨-, hstep⟩ := standsFor_encode .brk
  rw [hstep s hr ⟨hbyte, trivial⟩, exec_brk]

end

/-! ### The obligations -/

/-- Settles O19: the loop of run() ends with BRK's step, and a later run() begins in the state that step left. -/
theorem brkHaltsAfterItsByte : Obligations.BrkHaltsAfterItsByte := by
  refine ⟨standsFor_encode .brk, fun s => ⟨_, exec_brk s, ?_⟩, fun s hr hbyte => ⟨_, exec_brk s, ?_, ?_⟩⟩
  · exact ⟨pcAdvanced_advancePc .noneAddressing s, rfl, rfl, rfl, rfl, rfl, fun _ => rfl⟩
  · exact runLoop_of_halt (step_of_brk_byte hr hbyte) rfl
  · intro n
    rw [run, beginRun_halt_advancePc hr]

end Sys2Proof.Machine

/-! SUPPORT. Proofs of the statements about exceptions (60_exceptions.md): lemmas first, in the order of the
definitions they speak of, then the obligations. -/

namespace Sys2Proof.Machine

open Sys2Proof.Claims

/-! ### What a fault leaves (R207) and what run() finds after it (R208) -/

section
variable {s t : State} {f : Fault}

/-- Stopping with a fault records it in the run status alone, so a new call of run() undoes it (D3, D6;
logs 3 and 6). -/
theorem beginRun_stopWithFault (hr : s.runStatus = .running) (f : Fault) :
    (s.stopWithFault f).beginRun = s :=
  State.ext_fields rfl rfl rfl rfl rfl rfl hr.symm

/-- A call of run() that returned a fault left a state from which the next call begins where the fault was
raised. -/
theorem run_returned_err {n : Nat} (h : run n s = .returned (.err f) t) :
    step t.beginRun = .fault f ∧ t = t.beginRun.stopWithFault f := by
  obtain ⟨k, -, u, hu, hlast⟩ := runLoop_returned h
  obtain ⟨hr, -⟩ := runLoop_executing rfl hu
  cases hlast with
  | fault hstep =>
    rw [beginRun_stopWithFault hr]
    exact ⟨hstep, rfl⟩

end

/-! ### The obligations -/

/-- Settles O6: the step faults at decode, and the loop of run() returns that fault in the state it was in,
with the fault recorded in the run status. -/
theorem unimplementedOpcodeFaultsAndChangesNothing :
    Obligations.UnimplementedOpcodeFaultsAndChangesNothing := by
  intro s hr hop
  have hstep := step_of_notMem hr hop
  exact ⟨hstep, fun n => ⟨_, runLoop_of_fault hstep n, rfl, rfl, rfl, rfl, rfl, fun _ => rfl, rfl⟩⟩

/-- Settles O7: a step's fault is the fetch's, since no instruction faults, and a fetch has one fault. -/
theorem stepFaultsOnlyOnAnUnimplementedOpcode : Obligations.StepFaultsOnlyOnAnUnimplementedOpcode := by
  refine ⟨fun s f h => ?_, step_ne_refused⟩
  obtain ⟨-, hfetch⟩ := step_fault h
  exact fetchInstr_error hfetch

/-- Settles O43: the later run() faults in its first step, where the earlier one did in its last. -/
theorem runAfterAFaultFaultsAgain : Obligations.RunAfterAFaultFaultsAgain := by
  intro n s t f h m
  obtain ⟨hstep, hstop⟩ := run_returned_err h
  rw [run, runLoop_of_fault hstep, ← hstop]

end Sys2Proof.Machine

/-! SUPPORT. Proofs of the statements about the host's operations (70_reset_and_hazards.md): lemmas first, in the
order of the definitions they speak of, then the obligations. -/

namespace Sys2Proof.Machine

open Sys2Proof.Claims

/-! ### load and reset -/

theorem programFits_iff {p : List Byte} : programFits p = true ↔ p.length ≤ 0x8000 :=
  decide_eq_true_iff

section
variable {p : List Byte} {s t : State}

theorem load_of_length_le (s : State) (h : p.length ≤ 0x8000) :
    load p s =
      .ok ((s.writeBytes Config.loadBase p).memWrite16 Config.resetVectorAddr Config.resetVectorValue) :=
  if_pos (programFits_iff.mpr h)

theorem load_of_length_gt (s : State) (h : 0x8000 < p.length) :
    load p s = .error (.programTooLarge p.length) :=
  if_neg (mt programFits_iff.mp h.not_ge)

/-- A byte read after a load: the reset vector's, else the program's, else the one that stood there (R232). -/
theorem load_memRead (h : load p s = .ok t) (k : Addr) :
    t.memRead k = if k = 0xFFFD then 0x80 else if k = 0xFFFC then 0x00
      else p.getD (k - 0x8000).toNat (s.memRead k) := by
  obtain ⟨hfits, rfl⟩ := load_cases h
  have hlen : p.length ≤ 65536 := (programFits_iff.mp hfits).trans (by decide)
  rw [State.memRead_memWrite16, State.memRead_writeBytes _ _ _ _ hlen]
  rfl

theorem load_inv (h : load p s = .ok t) (hs : s.Inv) : t.Inv := by
  obtain ⟨-, rfl⟩ := load_cases h
  exact State.wf_memWrite16 _ _ (State.wf_writeBytes _ p hs)

/-- The memory that bytes are written to decides the memory they leave. -/
theorem State.writeBytes_mem_congr (a : Addr) (bytes : List Byte) (h : t.mem = s.mem) :
    (t.writeBytes a bytes).mem = (s.writeBytes a bytes).mem := by
  induction bytes generalizing a s t with
  | nil => exact h
  | cons b bytes ih => exact ih (a + 1) (by simp only [State.memWrite_mem, h])

theorem State.memWrite16_mem_congr (a v : Addr) (h : t.mem = s.mem) :
    (t.memWrite16 a v).mem = (s.memWrite16 a v).mem := by
  simp only [State.memWrite16, State.memWrite_mem, h]

/-- reset() reads memory alone (R234). -/
theorem hostReset_congr (h : t.mem = s.mem) : hostReset t = hostReset s := by
  simp only [hostReset, State.memRead16, State.memRead, h]

theorem hostReset_inv (hs : s.Inv) : (hostReset s).Inv := hs

/-- Registers set before a load and a reset are lost (R236). -/
theorem map_hostReset_load_congr (p : List Byte) (h : t.mem = s.mem) :
    (load p t).map hostReset = (load p s).map hostReset := by
  by_cases hlen : p.length ≤ 0x8000
  · rw [load_of_length_le t hlen, load_of_length_le s hlen]
    exact congrArg Except.ok
      (hostReset_congr (State.memWrite16_mem_congr _ _ (State.writeBytes_mem_congr _ p h)))
  · rw [load_of_length_gt t (not_le.mp hlen), load_of_length_gt s (not_le.mp hlen)]

/-! ### run() and the host's operations -/

/-- A call of run() keeps the invariant, whether it has returned or is still executing. -/
theorem run_inv (n : Nat) (hs : s.Inv) :
    (∀ t, run n s = .executing t → t.Inv) ∧ (∀ r t, run n s = .returned r t → t.Inv) :=
  runLoop_keeps (fun u v hu h => stepKeepsTheInvariant u v hu h) (fun _ _ hu => hu) n s.beginRun hs

/-- Between calls of run(), load_and_run is run after reset after a load that succeeds (R236). -/
theorem loadAndRun_of_stopped (n : Nat) (p : List Byte) (hr : s.runStatus ≠ .running) :
    loadAndRun n p s = ((load p s).map hostReset).map (run n) := by
  rw [loadAndRun, betweenRuns_of_stopped hr]
  cases load p s <;> rfl

theorem loadAndRun_inv {n : Nat} {r : RunProgress} (h : loadAndRun n p s = .ok r) (hs : s.Inv) :
    (∀ t, r = .executing t → t.Inv) ∧ (∀ q t, r = .returned q t → t.Inv) := by
  obtain ⟨-, u, hu, rfl⟩ := loadAndRun_cases h
  exact run_inv n (hostReset_inv (load_inv hu hs))

theorem applyHostOp_inv {op : HostOp} (h : applyHostOp op s = .ok t) (hs : s.Inv) : t.Inv := by
  obtain ⟨-, h⟩ := betweenRuns_eq_ok h
  cases op with
  | load p => exact load_inv h hs
  | memWrite a v => cases h; exact State.wf_memWrite a v hs
  | memWrite16 a v => cases h; exact State.wf_memWrite16 a v hs
  | reset => cases h; exact hostReset_inv hs
  | writeA v | writeX v | writeY v | writeStatus v | writePc v => cases h; exact hs

end

/-! ### The obligations -/

/-- Settles O28: a load and a host write keep the invariant by their writes, and run() by its steps. -/
theorem hostOperationsKeepTheInvariant : Obligations.HostOperationsKeepTheInvariant := by
  intro s hs
  refine ⟨fun op t h => applyHostOp_inv h hs, fun n => (run_inv n hs).1, fun n => (run_inv n hs).2,
    fun n p t h => ?_, fun n p r t h => ?_⟩
  · obtain ⟨hexec, -⟩ := loadAndRun_inv h hs
    exact hexec t rfl
  · obtain ⟨-, hret⟩ := loadAndRun_inv h hs
    exact hret r t rfl

/-- Settles O37: each byte is read after the load's writes, by its distance from 0x8000. -/
theorem loadWritesTheProgramAndTheVector : Obligations.LoadWritesTheProgramAndTheVector := by
  intro p s hlen
  have h := load_of_length_le s hlen
  refine ⟨_, h, load_memRead h 0xFFFC, load_memRead h 0xFFFD, fun k hk hlo hhi => ?_,
    fun addr hlo hhi hout => ?_, load_frame h⟩
  · have hdist : (BitVec.ofNat 16 (0x8000 + k) - 0x8000).toNat = k := by bv_omega
    rw [byteAt, load_memRead h, if_neg (by bv_omega), if_neg (by bv_omega), hdist,
      List.getD_eq_getElem _ _ hk]
  · have hdist : p.length ≤ (addr - 0x8000).toNat := by bv_omega
    rw [load_memRead h, if_neg hhi, if_neg hlo, List.getD_eq_default _ _ hdist]

/-- Settles O39: load_and_run is a function of what load and reset leave, which memory alone decides. -/
theorem loadAndRunIsLoadThenResetThenRun : Obligations.LoadAndRunIsLoadThenResetThenRun := by
  intro n p s
  refine ⟨fun hr => ⟨fun t h => ?_, fun e h => ?_, fun t ht hm => ?_⟩, fun hr => betweenRuns_of_running hr _⟩
  · rw [loadAndRun_of_stopped n p hr, h]
    rfl
  · rw [loadAndRun_of_stopped n p hr, h]
    rfl
  · rw [loadAndRun_of_stopped n p ht, loadAndRun_of_stopped n p hr, map_hostReset_load_congr p hm]

/-- Settles O38: such a program does not fit. -/
theorem loadRefusesAProgramTooLarge : Obligations.LoadRefusesAProgramTooLarge := by
  intro p s hlen
  have hload := load_of_length_gt s hlen
  exact ⟨hload, fun hr => (betweenRuns_of_stopped hr _).trans hload⟩

/-- Settles O40: between runs the host is answered with the write's own effect. -/
theorem hostWritesSetWhatTheyName : Obligations.HostWritesSetWhatTheyName := by
  intro s v w addr
  refine ⟨fun hr => ?_, fun hr _ => betweenRuns_of_running hr _⟩
  have hok (t : State) : s.betweenRuns (.ok t) = .ok t := betweenRuns_of_stopped hr _
  obtain ⟨hsame, hother, -⟩ := memWriteChangesOneByte s addr v
  exact ⟨hok _, hok _, hok _, hok _, hok _, ⟨_, hok _, hsame, hother, rfl⟩, hok _⟩

/-- Settles O46: between runs the host is answered with the value it asks for. -/
theorem hostReadsGiveWhatTheStateHolds : Obligations.HostReadsGiveWhatTheStateHolds := by
  intro s addr hr
  have hok (q : HostRead) : hostInspect q s = .ok (q.value s) := betweenRuns_of_stopped hr _
  refine ⟨hok .a, hok .x, hok .y, hok .status, hok .pc, ?_, _, hok (.memRead16 addr), toNat_memRead16 s addr⟩
  rw [byteAt_toNat]
  exact hok (.memRead addr)

/-- Settles O47: the host is answered between runs, and refused during one. -/
theorem hostActsOnlyBetweenCallsOfRun : Obligations.HostActsOnlyBetweenCallsOfRun := by
  intro n s
  refine ⟨fun hr => betweenRuns_of_stopped hr _, fun hr => ?_⟩
  have hrefused {α : Type} (r : Except HostError α) : s.betweenRuns r = .error .engineRunning :=
    betweenRuns_of_running hr r
  exact ⟨hrefused _, fun _ => hrefused _, fun _ => hrefused _, fun _ => hrefused _⟩

end Sys2Proof.Machine
